-- ==== Sys2Proof/Word.lean ====
section
/-! DEFINITION. The word types of SLRB: bytes, the 32-bit data word of RP (D17) and the 8-bit register handle (D17). -/

namespace Sys2Proof

/-- One byte of an element or of a bus frame. -/
abbrev Byte := BitVec 8

/-- The `DATA_W` = 32 bit word of RP: write data, `expected`, the read value (R7). -/
abbrev Data := BitVec 32

/-- A register handle: a row index of `REGMAP`, 8 bits on the command port (R72, D17). -/
abbrev Handle := BitVec 8

/-- One element of RB: an opaque byte sequence (R42). -/
abbrev Element := List Byte

end Sys2Proof
end

