-- ==== Sys2Proof/Config.lean ====
section
/-! DEFINITION. The parameter record `Cfg` (R7), every field of it OPEN in the spec, and the free values: constants without
a body that stand for what the spec leaves open. -/

namespace Sys2Proof

/-- The three ports that carry requests (R9): RB producer, RB consumer, RP command. -/
inductive Port where
  | producer
  | consumer
  | rp
  deriving DecidableEq, Repr, Inhabited

/-- The width of a device register: 1, 2 or 4 bytes (R20). -/
inductive RegWidth where
  | w1
  | w2
  | w4
  deriving DecidableEq, Repr

/-- The number of data bytes of a register of this width (R20). -/
def RegWidth.bytes : RegWidth → Nat
  | .w1 => 1
  | .w2 => 2
  | .w4 => 4

/-- The access mode of a device register (R20). Metadata: no operation reads it (R148). -/
inductive Access where
  | r
  | w
  | rw
  deriving DecidableEq, Repr

/-- One row of the register table `REGMAP` (R20). -/
structure RegRow where
  addr   : Byte
  width  : RegWidth
  access : Access
  deriving DecidableEq, Repr

/-- What bounds the number of elements GETMANY copies (R7, D11, C9). -/
inductive GetManyLimit where
  | avail
  | capacity
  deriving DecidableEq, Repr

/-- Which function `elem_of_value` is (R7, D16): the default, the data bytes in wire order, or any other, which is then the
free value `Config.elemOfValue`. -/
inductive ElemLayout where
  | wireOrder
  | other
  deriving DecidableEq, Repr

/-- The parameters of one SLRB (R7). Constant over a run: no operation writes it (R20, R27). `N_REGS` is the length of
`regmap` and `DATA_W` is 32. -/
structure Cfg where
  /-- `CAP_W`: width of capacity, head, tail and count. -/
  capW : Nat
  /-- `ESZ_W`: width of elementSize. -/
  eszW : Nat
  /-- `STORAGE_BYTES`; `none` is unbounded (D7). -/
  storageBytes : Option Nat
  /-- `GETMANY_LIMIT` (D11). -/
  getManyLimit : GetManyLimit
  /-- `elem_of_value` (D16). -/
  elemLayout : ElemLayout
  /-- `REGMAP` (R20). -/
  regmap : List RegRow
  /-- `WRITE_FLAG` (R73). -/
  writeFlag : Byte
  /-- `READ_FLAG` (R73). -/
  readFlag : Byte
  /-- `REG_FLASH_ADDR` (R21). -/
  regFlashAddr : Handle
  /-- `REG_FLASH_MODE` (R21). -/
  regFlashMode : Handle
  /-- `REG_STATUS` (R21). -/
  regStatus : Handle
  /-- `REG_FLASH_DATA_OUT` (R21). -/
  regFlashDataOut : Handle
  /-- `MODE_COPY_TO_OUTPUT` (D24). -/
  modeCopyToOutput : Data
  /-- `BUSY_BIT` (R171). -/
  busyBit : Nat
  /-- `POLL_LIMIT`; `none` is unbounded (R172, D26). -/
  pollLimit : Option Nat
  /-- `REG_SCAN_RESULT` (R107). -/
  regScanResult : Handle
  deriving DecidableEq, Repr

/-- `N_REGS`: the number of rows of `REGMAP` (R7). -/
def Cfg.nRegs (c : Cfg) : Nat := c.regmap.length

/-- `REGMAP[reg]`, if `reg < N_REGS` (R140). -/
def Cfg.row (c : Cfg) (reg : Handle) : Option RegRow := c.regmap[reg.toNat]?

/-- FREE VALUE (U6, log 5): the `n`-th byte the device answers beyond those that `Env.answers` lists. -/
opaque Config.deviceByte : Nat → Byte

/-- FREE VALUE (R56, log 4): which port is served when several could be and `Env.sched` does not say. -/
opaque Config.freeTurn : Nat → Port

/-- FREE VALUE (U19, log 22): `elem_of_value` when it is not the default. -/
opaque Config.elemOfValue : Data → Nat → Element

end Sys2Proof
end

