-- ==== Sys2Proof/Syntax.lean ====
section
/-! DEFINITION. The closed set of operations (R70), one constructor per row of spec/opcode_table.json, and the port of each
(R71). The pseudo-operations of R82 have no opcode and are not here: Machine/Pseudo.lean. -/

namespace Sys2Proof

/-- The operations of SLRB (R70). Operands of open width are naturals, bounded by `Instr.wf`; `put` carries the element's
bytes, byte 0 first. -/
inductive Instr where
  | init (capacity elementSize : Nat)
  | put (element : Element)
  | get
  | getMany (count : Nat)
  | isEmpty
  | isFull
  | destroy
  | write (reg : Handle) (data : Data)
  | read (reg : Handle)
  | verify (reg : Handle) (expected : Data)
  | flashRead (address : Data)
  | flashWrite (operand : Data)
  deriving DecidableEq, Repr

/-- The opcode `op` of an operation (R71). -/
def Instr.opcode : Instr → Nat
  | .init _ _ => 0x0
  | .put _ => 0x1
  | .get => 0x2
  | .getMany _ => 0x3
  | .isEmpty => 0x4
  | .isFull => 0x5
  | .destroy => 0x6
  | .write _ _ => 0x8
  | .read _ => 0x9
  | .verify _ _ => 0xA
  | .flashRead _ => 0xB
  | .flashWrite _ => 0xC

/-- The port that carries an operation (R71): only PUT comes on the producer port, bit 3 of the opcode selects RP. -/
def Instr.port : Instr → Port
  | .put _ => .producer
  | .init _ _ => .consumer
  | .get => .consumer
  | .getMany _ => .consumer
  | .isEmpty => .consumer
  | .isFull => .consumer
  | .destroy => .consumer
  | .write _ _ => .rp
  | .read _ => .rp
  | .verify _ _ => .rp
  | .flashRead _ => .rp
  | .flashWrite _ => .rp

end Sys2Proof
end

