-- ==== Sys2Proof/WellFormed.lean ====
section
/-! DEFINITION. Which configurations satisfy the constraints of R7, and which operations a command word can carry (R72). -/

namespace Sys2Proof

/-- `h` is a row index of `REGMAP` (R7: "each `< N_REGS`"). -/
def Cfg.validHandle (c : Cfg) (h : Handle) : Bool := decide (h.toNat < c.nRegs)

/-- `0 <= BUSY_BIT < 8 * REGMAP[REG_STATUS].width` (R7). -/
def Cfg.busyBitOk (c : Cfg) : Bool :=
  match c.row c.regStatus with
  | some r => decide (c.busyBit < 8 * r.width.bytes)
  | none => false

/-- `POLL_LIMIT` is `none` or at least 1 (R7). -/
def Cfg.pollLimitOk (c : Cfg) : Bool :=
  match c.pollLimit with
  | some n => decide (1 ≤ n)
  | none => true

/-- The constraints of the parameter table of R7. -/
def Cfg.wf (c : Cfg) : Bool :=
  decide (1 ≤ c.capW) && decide (1 ≤ c.eszW) && decide (1 ≤ c.nRegs)
    && c.validHandle c.regFlashAddr && c.validHandle c.regFlashMode && c.validHandle c.regStatus
    && c.validHandle c.regFlashDataOut && c.validHandle c.regScanResult
    && c.busyBitOk && c.pollLimitOk

/-- The operands fit the fields of R72: `capacity` and `count` in `CAP_W` bits, `elementSize` in `ESZ_W` bits, the element
in as many bytes as the elementSize register says (`es`). The fields of RP are bit vectors of their width. -/
def Instr.wf (c : Cfg) (es : Nat) : Instr → Bool
  | .init capacity elementSize => decide (capacity < 2 ^ c.capW) && decide (elementSize < 2 ^ c.eszW)
  | .put element => decide (element.length = es)
  | .getMany count => decide (count < 2 ^ c.capW)
  | .get => true
  | .isEmpty => true
  | .isFull => true
  | .destroy => true
  | .write _ _ => true
  | .read _ => true
  | .verify _ _ => true
  | .flashRead _ => true
  | .flashWrite _ => true

end Sys2Proof
end

