-- ==== Sys2Proof/Machine/ResetCfg.lean ====
section
/-! DEFINITION. The configuration the model takes at `State.reset`: EXCFG, the spec's own example (spec/95_test_vectors.md
section 0.1). DESIGN CHOICE (log 2): R7 leaves every parameter OPEN, and no statement of this model rests on this record. -/

namespace Sys2Proof.Machine

/-- `REGMAP` of EXCFG. -/
def exRegmap : List RegRow :=
  [⟨0x01#8, .w1, .rw⟩, ⟨0x02#8, .w2, .rw⟩, ⟨0x03#8, .w4, .rw⟩, ⟨0x04#8, .w1, .r⟩,
   ⟨0x05#8, .w2, .w⟩, ⟨0x06#8, .w1, .w⟩, ⟨0x07#8, .w2, .r⟩]

/-- EXCFG, with the `POLL_LIMIT` that each vector states for itself as an argument. -/
def exCfg (pollLimit : Option Nat) : Cfg where
  capW := 8
  eszW := 8
  storageBytes := some 64
  getManyLimit := .avail
  elemLayout := .wireOrder
  regmap := exRegmap
  writeFlag := 0x00#8
  readFlag := 0x80#8
  regFlashAddr := 4#8
  regFlashMode := 5#8
  regStatus := 3#8
  regFlashDataOut := 6#8
  modeCopyToOutput := 0x00000002#32
  busyBit := 3
  pollLimit := pollLimit
  regScanResult := 2#8

/-- The configuration at `State.reset`: EXCFG with `POLL_LIMIT = none`, "which is the source's behaviour" (R7). -/
def resetCfg : Cfg := exCfg none

end Sys2Proof.Machine
end

