-- ==== Sys2Proof/Decode.lean ====
section
/-! DEFINITION. Decoding and encoding of command words (R71, R72). A command word is the natural number whose bit `i` is bit
`i` of the word, bit 0 first in the opcode field. Decoding is total: every word is an operation or a reserved opcode, by
name. Bits above the last field of a format are no part of the word (log 11). -/

namespace Sys2Proof

/-- What a command word is: an operation, or a reserved opcode (R78). -/
inductive Decoded where
  | instr (i : Instr)
  | reserved (op : Nat)
  deriving DecidableEq, Repr

/-- The operation, if the word is one. -/
def Decoded.toInstr? : Decoded → Option Instr
  | .instr i => some i
  | .reserved _ => none

/-- The field `w[lo+n-1 : lo]`. -/
def bitField (w lo n : Nat) : Nat := (w >>> lo) % 2 ^ n

/-- `n` bytes from the low end of `w`, byte 0 in the lowest 8 bits (R71, row PUT). -/
def bytesOfNat : Nat → Nat → List Byte
  | 0, _ => []
  | n + 1, w => BitVec.ofNat 8 w :: bytesOfNat n (w >>> 8)

/-- The inverse of `bytesOfNat`: byte 0 in the lowest 8 bits. -/
def natOfBytes : List Byte → Nat
  | [] => 0
  | b :: bs => b.toNat + 2 ^ 8 * natOfBytes bs

/-- Decode a command word, given the widths of `Cfg` and the value `es` of the elementSize register, which sets the length
of PUT's word (R71, R72). -/
def decode (c : Cfg) (es : Nat) (w : Nat) : Decoded :=
  match bitField w 0 4 with
  | 0x0 => .instr (.init (bitField w 4 c.capW) (bitField w (c.capW + 4) c.eszW))
  | 0x1 => .instr (.put (bytesOfNat es (w >>> 4)))
  | 0x2 => .instr .get
  | 0x3 => .instr (.getMany (bitField w 4 c.capW))
  | 0x4 => .instr .isEmpty
  | 0x5 => .instr .isFull
  | 0x6 => .instr .destroy
  | 0x8 => .instr (.write (BitVec.ofNat 8 (bitField w 4 8)) (BitVec.ofNat 32 (bitField w 12 32)))
  | 0x9 => .instr (.read (BitVec.ofNat 8 (bitField w 4 8)))
  | 0xA => .instr (.verify (BitVec.ofNat 8 (bitField w 4 8)) (BitVec.ofNat 32 (bitField w 12 32)))
  | 0xB => .instr (.flashRead (BitVec.ofNat 32 (bitField w 4 32)))
  | 0xC => .instr (.flashWrite (BitVec.ofNat 32 (bitField w 4 32)))
  | op => .reserved op

/-- The operand fields above the opcode, the lowest at bit 0 of this number (R72). -/
def operandBits (c : Cfg) : Instr → Nat
  | .init capacity elementSize => capacity + 2 ^ c.capW * elementSize
  | .put element => natOfBytes element
  | .getMany count => count
  | .write reg data => reg.toNat + 2 ^ 8 * data.toNat
  | .read reg => reg.toNat
  | .verify reg expected => reg.toNat + 2 ^ 8 * expected.toNat
  | .flashRead address => address.toNat
  | .flashWrite operand => operand.toNat
  | .get => 0
  | .isEmpty => 0
  | .isFull => 0
  | .destroy => 0

/-- The command word of an operation (R71, R72): the opcode in bits `[3:0]`, the operand fields above it. -/
def encode (c : Cfg) (i : Instr) : Nat := i.opcode + 2 ^ 4 * operandBits c i

/-- How many bits the format of an operation has (R72), when the elementSize register holds `es`. -/
def formatBits (c : Cfg) (es : Nat) : Instr → Nat
  | .init _ _ => c.capW + c.eszW + 4
  | .put _ => 8 * es + 4
  | .get => 4
  | .getMany _ => c.capW + 4
  | .isEmpty => 4
  | .isFull => 4
  | .destroy => 4
  | .write _ _ => 44
  | .read _ => 12
  | .verify _ _ => 44
  | .flashRead _ => 36
  | .flashWrite _ => 36

/-- The port a word is meant for (R71): bit 3 of the opcode selects RP, and of the RB opcodes only PUT is the producer's. -/
def portOfWord (w : Nat) : Port :=
  if bitField w 3 1 = 1 then .rp else if bitField w 0 4 = 1 then .producer else .consumer

/-- What the decoder reads from a word of `nbits` bits in the reset state: the widths of the reset configuration, and an
elementSize register of 0 (R28), so a PUT has no element field (V-RB11). -/
def decodeTableWord (nbits w : Nat) : Option Instr :=
  (decode Machine.resetCfg 0 (w % 2 ^ nbits)).toInstr?

end Sys2Proof
end

