-- ==== Sys2Proof/Machine/State.lean ====
section
/-! DEFINITION. The state of SLRB as plain data: RB (R10, R16), RP (R22, R23, R175), the ports with what the environment
presents and what was returned (R9), the configuration (R7), the fault and refusal reasons, and the reset state (R28). -/

namespace Sys2Proof.Machine

/-- The error kinds, returned as the status of an operation (R190). -/
inductive Status where
  | ok
  | invalidPointer
  | invalidSize
  | noMemory
  | getOnEmpty
  | notInitialized
  /-- Of the out-of-scope controller: no operation returns it (R196). -/
  | noActiveChannel
  | unsuccessfulRegisterWrite
  | invalidBufferState
  | timeout
  deriving DecidableEq, Repr

/-- What a response carries beside its status (R79). `none` is also what a response without a meaningful result carries: a
status other than `Ok` has no result to read (U7, log 15), except GETMANY's count, which is 0. -/
inductive Result where
  | none
  | element (e : Element)
  | many (count : Nat) (es : List Element)
  | bit (b : Bool)
  | value (v : Data)
  deriving DecidableEq, Repr

/-- To whom a response goes: the port that carried the operation (R200), or the caller of the pseudo-operation
WRITE_CHECKED (R144). -/
inductive Receiver where
  | port (p : Port)
  | writeChecked
  deriving DecidableEq, Repr

/-- One response (R9, R79). -/
structure Response where
  receiver : Receiver
  status   : Status
  result   : Result
  deriving DecidableEq, Repr

/-- One event on RP's bus side (R53, R54, R57). -/
inductive BusEvent where
  /-- `CS(l)`: 0 asserts chip-select, 1 releases it (R54). -/
  | cs (level : BitVec 1)
  /-- `Xfer(tx) -> rx` (R53). -/
  | xfer (tx rx : List Byte)
  deriving DecidableEq, Repr

/-- Where in an operation's bus sequence the engine stands (R22). -/
inductive Phase where
  | idle
  | sel
  | xfer
  | desel
  | fSel
  | fAddr
  | fMode
  | fPoll
  | fData
  | fDesel
  deriving DecidableEq, Repr

/-- The operation in flight, which XFER and DESEL distinguish (R175). -/
inductive RpOp where
  | write
  | read
  | verify
  | flashRead
  deriving DecidableEq, Repr

/-- Who issued the operation in flight: the command port itself, the READ of a SAMPLE (R107), or the WRITE or the VERIFY of
a WRITE_CHECKED (R144). -/
inductive Client where
  | port
  | sample
  | checkWrite
  | checkVerify
  deriving DecidableEq, Repr

/-- Slot storage by byte address (R16): cells with strictly rising addresses; an unlisted byte is `Unwritten` and has no
value (R17, log 7). -/
abbrev Memory := List Host.Cell

/-- The RB unit (R10, R16). The registers of open width `CAP_W`, `ESZ_W` are naturals (log 6). -/
@[ext]
structure RbState where
  initialized : Bool
  capacity    : Nat
  elementSize : Nat
  /-- The next slot PUT writes. -/
  head        : Nat
  /-- The next slot GET reads. -/
  tail        : Nat
  mem         : Memory
  deriving DecidableEq, Repr

/-- The RP unit (R22, R23, R57, R175). -/
@[ext]
structure RpState where
  phase     : Phase
  /-- The level of the chip-select line: 0 asserted, 1 released. -/
  cs        : BitVec 1
  /-- `poll_cnt`: the status reads of the flash sequence in flight. -/
  pollCnt   : Nat
  /-- `op_regs`: the operation, its handle and its data word (`data`, `expected` or `address`). -/
  op        : RpOp
  reg       : Handle
  data      : Data
  client    : Client
  /-- The result latched for the response: its status and its value (R175). -/
  resStatus : Status
  resValue  : Data
  /-- The bus event history, oldest first (R57). -/
  history   : List BusEvent
  deriving DecidableEq, Repr

/-- What agent P presents: a command word on the producer port, or a SAMPLE (R107, R205). -/
inductive ProducerReq where
  | word (w : Nat)
  | sample
  deriving DecidableEq, Repr

/-- What is presented on the RP command port: a command word, or a WRITE_CHECKED (R144). -/
inductive RpReq where
  | word (w : Nat)
  | writeChecked (reg : Handle) (data : Data)
  deriving DecidableEq, Repr

/-- The model's inputs (R231): what the environment and the device are going to do, as data (log 3, 4, 5), and where a
pseudo-operation stands between its two operations (log 17, 18). -/
@[ext]
structure EnvState where
  producer    : List ProducerReq
  consumer    : List Nat
  rp          : List RpReq
  /-- The order in which the ports are served (R56); beyond it a free choice. -/
  sched       : List Port
  /-- The bytes the device answers, oldest first (R24, R53); beyond them free bytes. -/
  answers     : List Byte
  /-- How many free values were taken. No statement rests on its value. -/
  freeCount   : Nat
  /-- The value a SAMPLE has read and its PUT has not yet stored (R107). -/
  samplePut   : Option Data
  /-- The operands of a WRITE_CHECKED whose WRITE has returned `Ok` and whose VERIFY is still to come (R144). -/
  checkVerify : Option (Handle × Data)
  deriving DecidableEq, Repr

/-- The whole machine. `cfg` is a parameter, constant over a run (log 1). -/
@[ext]
structure State where
  cfg       : Cfg
  rb        : RbState
  rp        : RpState
  env       : EnvState
  /-- Every response returned so far, oldest first (R79). -/
  responses : List Response
  deriving DecidableEq, Repr

/-- Why the machine stops. Each is safe: the model stops where nothing is said of going on. -/
inductive Fault where
  /-- An `Unwritten` slot was read (R17, R41). Raised by `slotRead`, so by GETMANY under `GETMANY_LIMIT = capacity` (U3);
  never under `avail` in a state of the invariants. Safe. -/
  | unwrittenSlot
  /-- A slot index outside the storage (precondition of R41). Raised by `slotRead` and `slotWrite`; impossible in a state
  of the invariants (R58). Safe. -/
  | slotOutOfRange
  /-- A handle the engine uses is no row of `REGMAP`. Raised by the engine steps; impossible under the constraints of R7
  and the acceptance check of R140. Safe. -/
  | noSuchRow
  deriving DecidableEq, Repr

/-- Why the model gives no meaning (R210). Each is safe: nothing is provable of such a run. -/
inductive Refusal where
  /-- An instruction the model has no meaning for. No arm of `exec` answers it. Safe. -/
  | notModelled (mnemonic : String)
  /-- A reserved opcode, 0x7 or 0xD to 0xF (R78). Raised when a port is served. Safe. -/
  | reservedOpcode (op : Nat)
  /-- FLASH_WRITE, reserved and never described (R174). Raised by its meaning. Safe. -/
  | flashWriteReserved
  /-- An opcode presented on a port that does not carry it (R78, R55). Raised when a port is served. Safe. -/
  | wrongPort
  /-- An element whose length is not elementSize (U16, precondition of R41). Raised by `slotWrite`, so by PUT. Safe. -/
  | elementLength
  /-- An operand too wide for its field, which no command word carries (R72, log 12). Raised by INIT and GETMANY. Safe. -/
  | operandTooWide
  deriving DecidableEq, Repr

/-- RB after reset: the "zero-initialized buffer" (R28). -/
def RbState.reset : RbState where
  initialized := false
  capacity := 0
  elementSize := 0
  head := 0
  tail := 0
  mem := []

/-- RP after reset: idle, chip-select released (R28). The spec gives no value to `pollCnt`, the operand registers and the
result latches: the zeros are a DESIGN CHOICE (log 14). -/
def RpState.reset : RpState where
  phase := .idle
  cs := 1#1
  pollCnt := 0
  op := .read
  reg := 0#8
  data := 0#32
  client := .port
  resStatus := .ok
  resValue := 0#32
  history := []

/-- Nothing is presented and nothing is scripted. DESIGN CHOICE (log 3, 4, 5): the environment is not the block's. -/
def EnvState.reset : EnvState where
  producer := []
  consumer := []
  rp := []
  sched := []
  answers := []
  freeCount := 0
  samplePut := none
  checkVerify := none

/-- The reset state of an SLRB with parameters `c` (R28, R220). -/
def State.resetWith (c : Cfg) : State where
  cfg := c
  rb := RbState.reset
  rp := RpState.reset
  env := EnvState.reset
  responses := []

/-- The machine right after reset, with the configuration of log 2. -/
def State.reset : State := State.resetWith resetCfg

end Sys2Proof.Machine
end

