-- ==== Sys2Proof/Machine/Flags.lean ====
section
/-! DEFINITION. The flags of the block, all derived from state (R25), and the index arithmetic they rest on (R108). -/

namespace Sys2Proof.Machine

/-- `capacity - 1` in `CAP_W` bits (R13): the mask of every index; all ones when `capacity` is 0 (R26). -/
def indexMask (c : Cfg) (capacity : Nat) : Nat := (capacity + (2 ^ c.capW - 1)) % 2 ^ c.capW

/-- `wrap(i) = i & (capacity - 1)`, the AND taken in `CAP_W` bits (R13, R108). -/
def wrapIndex (c : Cfg) (rb : RbState) (i : Nat) : Nat := i &&& indexMask c rb.capacity

/-- `empty` is `head == tail` (R12). -/
def isEmptyFlag (rb : RbState) : Bool := decide (rb.head = rb.tail)

/-- `full` is `((head + 1) & (capacity - 1)) == tail` in `CAP_W` bits (R13, R26). -/
def isFullFlag (c : Cfg) (rb : RbState) : Bool := decide (wrapIndex c rb (rb.head + 1) = rb.tail)

/-- `avail = (head - tail + capacity) & (capacity - 1)`: the number of readable elements (R14). -/
def availCount (c : Cfg) (rb : RbState) : Nat := wrapIndex c rb (rb.head + rb.capacity - rb.tail)

/-- The test for an exact power of two of R100 (G1, C1). -/
def isPowerOfTwo (n : Nat) : Bool := decide (n ≠ 0) && decide (n &&& (n - 1) = 0)

/-- RP's `busy`: `phase != IDLE` (R25). -/
def rpBusy (rp : RpState) : Bool := decide (rp.phase ≠ .idle)

/-- The device's busy bit in a status value: bit `BUSY_BIT` and no other (R171). -/
def deviceBusy (c : Cfg) (status : Data) : Bool := status.getLsbD c.busyBit

end Sys2Proof.Machine
end

