-- ==== Sys2Proof/Machine/Operands.lean ====
section
/-! DEFINITION. The operand forms: register values as bytes on the bus (R43), the bus frames (R73 to R76), the element of a
SAMPLE (R107), the numbers of the status port (R190). -/

namespace Sys2Proof.Machine

/-- The low `8 * w` bits of `d` as `w` bytes, most significant first (R74): byte `i` is `(d >> 8*(w-1-i)) & 0xFF`. -/
def bigEndianBytes : Nat → Data → List Byte
  | 0, _ => []
  | w + 1, d => (d >>> (8 * w)).setWidth 8 :: bigEndianBytes w d

/-- The value of bytes received most significant first, zero-extended to 32 bits (R76). -/
def bigEndianValue : List Byte → Data
  | [] => 0
  | b :: bs => (b.setWidth 32 <<< (8 * bs.length)) + bigEndianValue bs

/-- `WFrame(r, data)`: the address byte OR `WRITE_FLAG`, then the data truncated to the width (R73, R74). -/
def writeFrame (c : Cfg) (row : RegRow) (d : Data) : List Byte :=
  (row.addr ||| c.writeFlag) :: bigEndianBytes row.width.bytes d

/-- `RFrame(r)`: the address byte OR `READ_FLAG`, then as many zero bytes as the width (R73, R75). -/
def readFrame (c : Cfg) (row : RegRow) : List Byte :=
  (row.addr ||| c.readFlag) :: List.replicate row.width.bytes 0x00#8

/-- `RValue(rx, w)`: big-endian from `rx[1]` to `rx[w]`; `rx[0]` is ignored (R76). -/
def readValue (rx : List Byte) (w : Nat) : Data := bigEndianValue ((rx.drop 1).take w)

/-- `elem_of_value(v, w)`: by default the `w` data bytes in wire order (R7, R107, D16). -/
def elemOfValue (c : Cfg) (v : Data) (w : Nat) : Element :=
  match c.elemLayout with
  | .wireOrder => bigEndianBytes w v
  | .other => Config.elemOfValue v w

/-- The 4-bit status code of an error kind (R190, D3). -/
def statusCode : Status → BitVec 4
  | .ok => 0#4
  | .invalidPointer => 1#4
  | .invalidSize => 2#4
  | .noMemory => 3#4
  | .getOnEmpty => 4#4
  | .notInitialized => 5#4
  | .noActiveChannel => 6#4
  | .unsuccessfulRegisterWrite => 7#4
  | .invalidBufferState => 8#4
  | .timeout => 9#4

end Sys2Proof.Machine
end

