-- ==== Sys2Proof/Machine/Ops.lean ====
section
/-! DEFINITION. The named operations over storage, registers, ports and the bus. The block has no traps (R200): what stands
in place of taking an exception is `State.respond` with an error status, one operation that changes nothing else (R203), and
there is no return from one (R201). -/

namespace Sys2Proof.Machine

/-- Go on from a next state; a fault or a refusal stays what it is. -/
def andThen {α β : Type} (o : Host.Outcome α Fault Refusal) (f : α → Host.Outcome β Fault Refusal) :
    Host.Outcome β Fault Refusal :=
  match o with
  | .next a => f a
  | .fault r => .fault r
  | .refused r => .refused r

/-! ### Slot storage (R16, R17, R41, R51) -/

/-- The byte at a byte address of the storage, if it has been written. -/
def readByte : Memory → Nat → Option Byte
  | [], _ => none
  | (b, v) :: m, a => if a = b then some v else readByte m a

/-- Write one byte, keeping the addresses strictly rising. -/
def writeByte : Memory → Nat → Byte → Memory
  | [], a, v => [(a, v)]
  | (b, u) :: m, a, v =>
    if a < b then (a, v) :: (b, u) :: m else if a = b then (a, v) :: m else (b, u) :: writeByte m a v

/-- The canonical form: addresses strictly rising. An unlisted byte has no value, so no listed byte equals it. -/
def Memory.wf : Memory → Bool
  | [] => true
  | [_] => true
  | (a, _) :: (b, v) :: m => decide (a < b) && Memory.wf ((b, v) :: m)

/-- `n` bytes from address `a` on, if all are written. -/
def readBytes (m : Memory) : Nat → Nat → Option (List Byte)
  | _, 0 => some []
  | a, n + 1 =>
    match readByte m a, readBytes m (a + 1) n with
    | some b, some bs => some (b :: bs)
    | _, _ => none

/-- Write the bytes of a list from address `a` on. -/
def writeBytes : Memory → Nat → List Byte → Memory
  | m, _, [] => m
  | m, a, b :: bs => writeBytes (writeByte m a b) (a + 1) bs

/-- Slot `i` exists: the storage is allocated and `i < capacity` (R16). -/
def slotExists (rb : RbState) (i : Nat) : Bool := rb.initialized && decide (i < rb.capacity)

/-- `SlotRead(i)`: the element at byte address `i * elementSize` (R41); an `Unwritten` slot is a fault (R17). -/
def slotRead (rb : RbState) (i : Nat) : Host.Outcome Element Fault Refusal :=
  if slotExists rb i then
    match readBytes rb.mem (i * rb.elementSize) rb.elementSize with
    | some e => .next e
    | none => .fault .unwrittenSlot
  else .fault .slotOutOfRange

/-- `SlotWrite(i, e)`: all `elementSize` bytes at byte address `i * elementSize` (R41); an element of another length has no
meaning (U16). -/
def slotWrite (rb : RbState) (i : Nat) (e : Element) : Host.Outcome RbState Fault Refusal :=
  if slotExists rb i then
    if e.length = rb.elementSize then
      .next { rb with mem := writeBytes rb.mem (i * rb.elementSize) e }
    else .refused .elementLength
  else .fault .slotOutOfRange

/-- One contiguous copy: the slots `t .. t + n - 1` in order (R51). -/
def copyRun (rb : RbState) : Nat → Nat → Host.Outcome (List Element) Fault Refusal
  | _, 0 => .next []
  | t, n + 1 =>
    andThen (slotRead rb t) fun e => andThen (copyRun rb (t + 1) n) fun es => .next (e :: es)

/-- `RunRead(t, k)`: `first = min(k, capacity - t)` slots from `t`, then `k - first` slots from slot 0 (R51). -/
def runRead (rb : RbState) (t k : Nat) : Host.Outcome (List Element) Fault Refusal :=
  andThen (copyRun rb t (min k (rb.capacity - t))) fun es₁ =>
    andThen (copyRun rb 0 (k - min k (rb.capacity - t))) fun es₂ => .next (es₁ ++ es₂)

/-! ### RB index updates (R101, R102, R103) -/

/-- `head <- (head + 1) & mask`; if that makes `head == tail`, `tail <- (tail + 1) & mask` too (R101). -/
def advanceHead (c : Cfg) (rb : RbState) : RbState :=
  { rb with
    head := wrapIndex c rb (rb.head + 1)
    tail := if wrapIndex c rb (rb.head + 1) = rb.tail then wrapIndex c rb (rb.tail + 1) else rb.tail }

/-- `tail <- (tail + k) & mask` (R102, R103). -/
def advanceTail (c : Cfg) (rb : RbState) (k : Nat) : RbState :=
  { rb with tail := wrapIndex c rb (rb.tail + k) }

/-- RB after a successful INIT: empty, every slot `Unwritten` (R100). -/
def freshBuffer (capacity elementSize : Nat) : RbState where
  initialized := true
  capacity := capacity
  elementSize := elementSize
  head := 0
  tail := 0
  mem := []

/-- `capacity * elementSize > STORAGE_BYTES`, the product exact (R100, R193). -/
def exceedsStorage (c : Cfg) (capacity elementSize : Nat) : Bool :=
  match c.storageBytes with
  | some n => decide (n < capacity * elementSize)
  | none => false

/-! ### Responses -/

/-- Return a response to its receiver (R79, R200). With an error status this is the whole effect of the operation (R203). -/
def State.respond (s : State) (to' : Receiver) (st : Status) (res : Result) : State :=
  { s with responses := s.responses ++ [⟨to', st, res⟩] }

/-- RB replaced as one value (R19). -/
def State.withRb (s : State) (rb : RbState) : State := { s with rb := rb }

/-! ### The bus and the device (R53, R54, R57) -/

/-- The next `n` bytes the device answers: the scripted ones, then free bytes (R24, U6). -/
def deviceBytes (env : EnvState) (n : Nat) : List Byte :=
  env.answers.take n ++
    (List.range (n - env.answers.length)).map fun j => Config.deviceByte (env.freeCount + j)

/-- The inputs after the device has answered `n` bytes. -/
def afterBytes (env : EnvState) (n : Nat) : EnvState :=
  { env with
    answers := env.answers.drop n
    freeCount := env.freeCount + (n - env.answers.length) }

/-- `CS(l)`: drive chip-select to `l` (R54). -/
def State.busCs (s : State) (l : BitVec 1) : State :=
  { s with rp := { s.rp with cs := l, history := s.rp.history ++ [.cs l] } }

/-- `Xfer(tx)`: one transaction, the received bytes being the device's (R53). -/
def State.busXfer (s : State) (tx : List Byte) : State :=
  { s with
    rp := { s.rp with history := s.rp.history ++ [.xfer tx (deviceBytes s.env tx.length)] }
    env := afterBytes s.env tx.length }

/-! ### RP registers (R22, R23) -/

/-- `phase <- p`. -/
def State.setPhase (s : State) (p : Phase) : State := { s with rp := { s.rp with phase := p } }

/-- `poll_cnt <- n`. -/
def State.setPollCnt (s : State) (n : Nat) : State := { s with rp := { s.rp with pollCnt := n } }

/-- Latch the result of the operation in flight (R175). -/
def State.latch (s : State) (st : Status) (v : Data) : State :=
  { s with rp := { s.rp with resStatus := st, resValue := v } }

/-- Latch the operands of an operation in `op_regs` (R23, R175). -/
def State.loadOp (s : State) (client : Client) (op : RpOp) (reg : Handle) (d : Data) : State :=
  { s with rp := { s.rp with client := client, op := op, reg := reg, data := d } }

/-- Hand the response of an RP operation on to a pseudo-operation that waits for it: SAMPLE keeps the value for its PUT
(R107), WRITE_CHECKED goes on to its VERIFY or returns its own status (R144). -/
def State.wake (s : State) (client : Client) (st : Status) (res : Result) : State :=
  match client with
  | .port => s
  | .sample =>
    match res with
    | .value v => { s with env := { s.env with samplePut := some v } }
    | _ => s
  | .checkWrite =>
    if st = .ok then { s with env := { s.env with checkVerify := some (s.rp.reg, s.rp.data) } }
    else s.respond .writeChecked st .none
  | .checkVerify =>
    s.respond .writeChecked
      (if st = .ok then (if res = .bit true then .ok else .unsuccessfulRegisterWrite) else st) .none

/-- Return the response of an RP operation on the command port (R79), and wake the pseudo-operation it belongs to. -/
def State.deliver (s : State) (client : Client) (st : Status) (res : Result) : State :=
  (s.respond (.port .rp) st res).wake client st res

/-- Present WRITE, READ or VERIFY to the engine (R140, R175, R176). While the engine is busy it is not accepted and has no
effect; a handle that is no row returns `InvalidPointer`; otherwise the operands are latched and the engine leaves IDLE. -/
def State.acceptRegOp (s : State) (client : Client) (op : RpOp) (reg : Handle) (d : Data) : State :=
  if rpBusy s.rp then s
  else
    match s.cfg.row reg with
    | none => s.deliver client .invalidPointer .none
    | some _ => (s.loadOp client op reg d).setPhase .sel

/-- Present FLASH_READ to the engine (R170, R175, R176): `poll_cnt <- 0`, the address latched. -/
def State.acceptFlash (s : State) (address : Data) : State :=
  if rpBusy s.rp then s
  else ((s.loadOp .port .flashRead s.rp.reg address).setPollCnt 0).setPhase .fSel

end Sys2Proof.Machine
end

