-- ==== Sys2Proof/Machine/Flash.lean ====
section
/-! DEFINITION. The meanings of FLASH_READ and FLASH_WRITE (spec/42_flash_sequence.md). The flash sequence itself runs one
phase a step: Machine/Sequencer.lean (log 9). -/

namespace Sys2Proof.Machine

/-- FLASH_READ (R170): accepted when the engine is idle. Its handles come from `Cfg`, so it cannot return
`InvalidPointer`. -/
def execFlashRead (address : Data) (s : State) : Host.Outcome State Fault Refusal :=
  .next (s.acceptFlash address)

/-- FLASH_WRITE is reserved: "a model must not invent a sequence for it" (R174, R78). -/
def execFlashWrite (_operand : Data) (_s : State) : Host.Outcome State Fault Refusal :=
  .refused .flashWriteReserved

end Sys2Proof.Machine
end

