-- ==== Sys2Proof/Machine/RegisterProtocol.lean ====
section
/-! DEFINITION. The meanings of WRITE, READ and VERIFY (spec/41_register_protocol_ops.md). What an operation does when it is
presented is the first row of the phase table (R175): it is accepted, or returns `InvalidPointer`, or, while the engine is
busy, has no effect (R176). The bus events follow one a step: Machine/Sequencer.lean (log 9). -/

namespace Sys2Proof.Machine

/-- WRITE (R141). -/
def execWrite (reg : Handle) (data : Data) (s : State) : Host.Outcome State Fault Refusal :=
  .next (s.acceptRegOp .port .write reg data)

/-- READ (R142). It has no data operand: the data word of `op_regs` stays. -/
def execRead (reg : Handle) (s : State) : Host.Outcome State Fault Refusal :=
  .next (s.acceptRegOp .port .read reg s.rp.data)

/-- VERIFY (R143). -/
def execVerify (reg : Handle) (expected : Data) (s : State) : Host.Outcome State Fault Refusal :=
  .next (s.acceptRegOp .port .verify reg expected)

end Sys2Proof.Machine
end

