-- ==== Sys2Proof/Machine/RingBuffer.lean ====
section
/-! DEFINITION. The meanings of the RB operations (spec/40_ringbuffer_ops.md). Each is one atomic transition (R46), its checks
in the order of its pseudocode (R202). -/

namespace Sys2Proof.Machine

/-- INIT (R100). -/
def execInit (capacity elementSize : Nat) (s : State) : Host.Outcome State Fault Refusal :=
  if 2 ^ s.cfg.capW ≤ capacity ∨ 2 ^ s.cfg.eszW ≤ elementSize then .refused .operandTooWide
  else if s.rb.initialized then .next (s.respond (.port .consumer) .invalidBufferState .none)
  else if isPowerOfTwo capacity = false then .next (s.respond (.port .consumer) .invalidSize .none)
  else if elementSize = 0 then .next (s.respond (.port .consumer) .invalidSize .none)
  else if exceedsStorage s.cfg capacity elementSize then .next (s.respond (.port .consumer) .noMemory .none)
  else .next ((s.withRb (freshBuffer capacity elementSize)).respond (.port .consumer) .ok .none)

/-- PUT (R101): overwrite-on-full, the comparison with the new `head` and the old `tail`. -/
def execPut (element : Element) (s : State) : Host.Outcome State Fault Refusal :=
  if s.rb.initialized then
    andThen (slotWrite s.rb s.rb.head element) fun rb =>
      .next ((s.withRb (advanceHead s.cfg rb)).respond (.port .producer) .ok .none)
  else .next (s.respond (.port .producer) .notInitialized .none)

/-- GET (R102). -/
def execGet (s : State) : Host.Outcome State Fault Refusal :=
  if s.rb.initialized then
    if isEmptyFlag s.rb then .next (s.respond (.port .consumer) .getOnEmpty .none)
    else
      andThen (slotRead s.rb s.rb.tail) fun e =>
        .next ((s.withRb (advanceTail s.cfg s.rb 1)).respond (.port .consumer) .ok (.element e))
  else .next (s.respond (.port .consumer) .notInitialized .none)

/-- The number of elements GETMANY copies (R103, D11). -/
def getManyCount (s : State) (count : Nat) : Nat :=
  match s.cfg.getManyLimit with
  | .avail => min count (availCount s.cfg s.rb)
  | .capacity => min count s.rb.capacity

/-- GETMANY (R103): its count is 0 when the status is not `Ok` (R79, D12). -/
def execGetMany (count : Nat) (s : State) : Host.Outcome State Fault Refusal :=
  if 2 ^ s.cfg.capW ≤ count then .refused .operandTooWide
  else if s.rb.initialized then
    if count = 0 then .next (s.respond (.port .consumer) .ok (.many 0 []))
    else
      andThen (runRead s.rb s.rb.tail (getManyCount s count)) fun es =>
        .next ((s.withRb (advanceTail s.cfg s.rb (getManyCount s count))).respond (.port .consumer) .ok
          (.many (getManyCount s count) es))
  else .next (s.respond (.port .consumer) .notInitialized (.many 0 []))

/-- ISEMPTY (R104): a pure predicate, defined on the uninitialized buffer too (R26). -/
def execIsEmpty (s : State) : Host.Outcome State Fault Refusal :=
  .next (s.respond (.port .consumer) .ok (.bit (isEmptyFlag s.rb)))

/-- ISFULL (R105): a pure predicate, defined on the uninitialized buffer too (R26). -/
def execIsFull (s : State) : Host.Outcome State Fault Refusal :=
  .next (s.respond (.port .consumer) .ok (.bit (isFullFlag s.cfg s.rb)))

/-- DESTROY (R106): afterwards RB is in its reset state (D13). -/
def execDestroy (s : State) : Host.Outcome State Fault Refusal :=
  .next ((s.withRb RbState.reset).respond (.port .consumer) .ok .none)

end Sys2Proof.Machine
end

