-- ==== Sys2Proof/Machine/Dispatch.lean ====
section
/-! DEFINITION. The meaning of every operation of the block (R70), one direct call each. -/

namespace Sys2Proof.Machine

def exec (i : Instr) (s : State) : Host.Outcome State Fault Refusal :=
  match i with
  | .init capacity elementSize => Sys2Proof.Machine.execInit capacity elementSize s
  | .put element => Sys2Proof.Machine.execPut element s
  | .get => Sys2Proof.Machine.execGet s
  | .getMany count => Sys2Proof.Machine.execGetMany count s
  | .isEmpty => Sys2Proof.Machine.execIsEmpty s
  | .isFull => Sys2Proof.Machine.execIsFull s
  | .destroy => Sys2Proof.Machine.execDestroy s
  | .write reg data => Sys2Proof.Machine.execWrite reg data s
  | .read reg => Sys2Proof.Machine.execRead reg s
  | .verify reg expected => Sys2Proof.Machine.execVerify reg expected s
  | .flashRead address => Sys2Proof.Machine.execFlashRead address s
  | .flashWrite operand => Sys2Proof.Machine.execFlashWrite operand s

end Sys2Proof.Machine
end

