-- ==== Sys2Proof/Machine/Pseudo.lean ====
section
/-! DEFINITION. The pseudo-operations of R82 that an agent presents: SAMPLE (R107) and WRITE_CHECKED (R144). Each is two
operations of the block; between them the other agent may act (R56), so each half is a step of its own (log 17, 18). The raw
frames of R145 are `State.exchangeWrite` and `State.exchangeRead`, inside the flash sequence only. -/

namespace Sys2Proof.Machine

/-- The READ of a SAMPLE: `READ REG_SCAN_RESULT` (R107). -/
def startSample (s : State) : Host.Outcome State Fault Refusal :=
  .next (s.acceptRegOp .sample .read s.cfg.regScanResult s.rp.data)

/-- The width in bytes of the scan-result register (R107). -/
def scanWidth (c : Cfg) : Nat :=
  match c.row c.regScanResult with
  | some row => row.width.bytes
  | none => 0

/-- The PUT of a SAMPLE: `PUT elem_of_value(v, w)`, the whole of R101 (R107, C7). -/
def finishSample (v : Data) (s : State) : Host.Outcome State Fault Refusal :=
  execPut (elemOfValue s.cfg v (scanWidth s.cfg)) { s with env := { s.env with samplePut := none } }

/-- The WRITE of a WRITE_CHECKED (R144). -/
def startWriteChecked (reg : Handle) (data : Data) (s : State) : Host.Outcome State Fault Refusal :=
  .next (s.acceptRegOp .checkWrite .write reg data)

/-- The VERIFY of a WRITE_CHECKED, with the same operands (R144). -/
def finishWriteChecked (reg : Handle) (data : Data) (s : State) : Host.Outcome State Fault Refusal :=
  .next ({ s with env := { s.env with checkVerify := none } }.acceptRegOp .checkVerify .verify reg data)

end Sys2Proof.Machine
end

