-- ==== Sys2Proof/Machine/Sequencer.lean ====
section
/-! DEFINITION. The RP sequencer: the phase table of R175, one function per phase, one row a step, the row's bus event
performed on that step. -/

namespace Sys2Proof.Machine

/-- Look up the row of a handle the engine uses (R140); the constraints of R7 and the acceptance check exclude the fault. -/
def withRow (s : State) (reg : Handle) (f : RegRow → State) : Host.Outcome State Fault Refusal :=
  match s.cfg.row reg with
  | some row => .next (f row)
  | none => .fault .noSuchRow

/-- A read frame exchanged with the device: the state after it (R75). -/
def State.exchangeRead (s : State) (row : RegRow) : State := s.busXfer (readFrame s.cfg row)

/-- A write frame exchanged with the device, the answer discarded: the state after it (R74). -/
def State.exchangeWrite (s : State) (row : RegRow) (d : Data) : State := s.busXfer (writeFrame s.cfg row d)

/-- The value of the answer the device is about to give to a read frame (R76). -/
def valueRead (s : State) (row : RegRow) : Data :=
  readValue (deviceBytes s.env (readFrame s.cfg row).length) row.width.bytes

/-- SEL: `CS(0)`. -/
def engineSel (s : State) : Host.Outcome State Fault Refusal := .next ((s.busCs 0#1).setPhase .xfer)

/-- XFER: the frame of the operation in flight; READ and VERIFY latch the value (R141, R142, R143). -/
def engineXfer (s : State) : Host.Outcome State Fault Refusal :=
  withRow s s.rp.reg fun row =>
    match s.rp.op with
    | .write => ((s.exchangeWrite row s.rp.data).latch .ok s.rp.resValue).setPhase .desel
    | _ => ((s.exchangeRead row).latch .ok (valueRead s row)).setPhase .desel

/-- What WRITE, READ, VERIFY and FLASH_READ return with status `Ok` (R79): VERIFY compares 32 bits, `expected` unmasked
(R143). -/
def okResult (rp : RpState) : Result :=
  match rp.op with
  | .write => .none
  | .read => .value rp.resValue
  | .verify => .bit (decide (rp.resValue = rp.data))
  | .flashRead => .value rp.resValue

/-- The result that goes with the latched status: none unless it is `Ok` (U7). -/
def latchedResult (rp : RpState) : Result := if rp.resStatus = .ok then okResult rp else .none

/-- DESEL and F_DESEL: `CS(1)`, back to IDLE, the response returned. -/
def engineDesel (s : State) : Host.Outcome State Fault Refusal :=
  .next (((s.busCs 1#1).setPhase .idle).deliver s.rp.client s.rp.resStatus (latchedResult s.rp))

/-- F_SEL: `CS(0)`, once for the whole sequence (R173). -/
def engineFSel (s : State) : Host.Outcome State Fault Refusal := .next ((s.busCs 0#1).setPhase .fAddr)

/-- F_ADDR: `WRITE_RAW(REG_FLASH_ADDR, address)`. -/
def engineFAddr (s : State) : Host.Outcome State Fault Refusal :=
  withRow s s.cfg.regFlashAddr fun row => (s.exchangeWrite row s.rp.data).setPhase .fMode

/-- F_MODE: `WRITE_RAW(REG_FLASH_MODE, MODE_COPY_TO_OUTPUT)` (D24). -/
def engineFMode (s : State) : Host.Outcome State Fault Refusal :=
  withRow s s.cfg.regFlashMode fun row => (s.exchangeWrite row s.cfg.modeCopyToOutput).setPhase .fPoll

/-- `POLL_LIMIT != none and poll_cnt >= POLL_LIMIT` (R170, R172). -/
def pollLimitReached (c : Cfg) (n : Nat) : Bool :=
  match c.pollLimit with
  | some limit => decide (limit ≤ n)
  | none => false

/-- F_POLL: one status read; clear goes on to F_DATA, busy polls again or, at the limit, times out (R171, R172). -/
def engineFPoll (s : State) : Host.Outcome State Fault Refusal :=
  withRow s s.cfg.regStatus fun row =>
    let polled := (s.exchangeRead row).setPollCnt (s.rp.pollCnt + 1)
    if deviceBusy s.cfg (valueRead s row) then
      if pollLimitReached s.cfg (s.rp.pollCnt + 1) then
        (polled.latch .timeout s.rp.resValue).setPhase .fDesel
      else polled.setPhase .fPoll
    else polled.setPhase .fData

/-- F_DATA: `READ_RAW(REG_FLASH_DATA_OUT)`, the value latched. -/
def engineFData (s : State) : Host.Outcome State Fault Refusal :=
  withRow s s.cfg.regFlashDataOut fun row =>
    ((s.exchangeRead row).latch .ok (valueRead s row)).setPhase .fDesel

/-- One step of the engine (R175). In IDLE it has nothing to do. -/
def engineStep (s : State) : Host.Outcome State Fault Refusal :=
  match s.rp.phase with
  | .idle => .next s
  | .sel => engineSel s
  | .xfer => engineXfer s
  | .desel => engineDesel s
  | .fSel => engineFSel s
  | .fAddr => engineFAddr s
  | .fMode => engineFMode s
  | .fPoll => engineFPoll s
  | .fData => engineFData s
  | .fDesel => engineDesel s

/-- `n` steps of the engine with nothing else in between. -/
def engineRun : Nat → State → Host.Outcome State Fault Refusal
  | 0, s => .next s
  | n + 1, s => andThen (engineStep s) (engineRun n)

end Sys2Proof.Machine
end

