-- ==== Sys2Proof/Machine/Turns.lean ====
section
/-! DEFINITION. Which port is served next (R47, R56) and what serving it does: a request is decoded and run (R71, R78), a
busy RP unit advances one phase (R175), a pseudo-operation goes on (R82). -/

namespace Sys2Proof.Machine

/-- The operation in flight is the READ of a SAMPLE: agent P waits for it (R107). -/
def sampling (s : State) : Bool := rpBusy s.rp && decide (s.rp.client = .sample)

/-- Agent P has a move: the PUT of its SAMPLE, or a request it is not kept from. The READ of a SAMPLE is held while the
engine is busy (R226). -/
def producerReady (s : State) : Bool :=
  if sampling s then false
  else
    match s.env.samplePut, s.env.producer with
    | some _, _ => true
    | none, [] => false
    | none, .word _ :: _ => true
    | none, .sample :: _ => !rpBusy s.rp

/-- A request is presented on the consumer port. -/
def consumerReady (s : State) : Bool := !s.env.consumer.isEmpty

/-- The RP unit has a phase to advance, a WRITE_CHECKED to go on with, or a request presented. -/
def rpReady (s : State) : Bool := rpBusy s.rp || s.env.checkVerify.isSome || !s.env.rp.isEmpty

/-- The ports that have a move. -/
def readyPorts (s : State) : List Port :=
  (if producerReady s then [.producer] else []) ++
    ((if consumerReady s then [.consumer] else []) ++ (if rpReady s then [.rp] else []))

/-- Which port is served next: as `sched` says; beyond it the only one with a move, or a free choice (R56). -/
def nextTurn (s : State) : Port :=
  match s.env.sched with
  | p :: _ => p
  | [] =>
    match readyPorts s with
    | [] => .rp
    | [p] => p
    | _ => Config.freeTurn s.env.freeCount

/-- The inputs once the turn is taken. -/
def afterTurn (s : State) : State :=
  match s.env.sched with
  | _ :: ps => { s with env := { s.env with sched := ps } }
  | [] =>
    match readyPorts s with
    | [] => s
    | [_] => s
    | _ => { s with env := { s.env with freeCount := s.env.freeCount + 1 } }

/-- A command word presented on port `p`: a reserved opcode and an opcode of another port are refused (R78, R55), an
operation of the port is run. -/
def issue (p : Port) (w : Nat) (s : State) : Host.Outcome State Fault Refusal :=
  match decode s.cfg s.rb.elementSize w with
  | .reserved op => .refused (.reservedOpcode op)
  | .instr i => if i.port = p then exec i s else .refused .wrongPort

/-- Serve agent P (R205). While its SAMPLE waits for the engine nothing happens. -/
def serveProducer (s : State) : Host.Outcome State Fault Refusal :=
  if sampling s then .next s
  else
    match s.env.samplePut with
    | some v => finishSample v s
    | none =>
      match s.env.producer with
      | [] => .next s
      | .word w :: rest => issue .producer w { s with env := { s.env with producer := rest } }
      | .sample :: rest =>
        if rpBusy s.rp then .next s
        else startSample { s with env := { s.env with producer := rest } }

/-- Serve the consumer port. -/
def serveConsumer (s : State) : Host.Outcome State Fault Refusal :=
  match s.env.consumer with
  | [] => .next s
  | w :: rest => issue .consumer w { s with env := { s.env with consumer := rest } }

/-- Serve the RP unit: a busy engine advances, and what is presented meanwhile is held (R176); an idle one goes on with a
WRITE_CHECKED or accepts the next request. -/
def serveRp (s : State) : Host.Outcome State Fault Refusal :=
  if rpBusy s.rp then engineStep s
  else
    match s.env.checkVerify with
    | some (reg, data) => finishWriteChecked reg data s
    | none =>
      match s.env.rp with
      | [] => .next s
      | .word w :: rest => issue .rp w { s with env := { s.env with rp := rest } }
      | .writeChecked reg data :: rest =>
        startWriteChecked reg data { s with env := { s.env with rp := rest } }

/-- Serve one port. -/
def serve (p : Port) (s : State) : Host.Outcome State Fault Refusal :=
  match p with
  | .producer => serveProducer s
  | .consumer => serveConsumer s
  | .rp => serveRp s

/-- `s` with command word `w` presented on port `p` and that port served next: an RP word needs an idle engine and no
WRITE_CHECKED in progress, a producer word no SAMPLE in progress. -/
def presentWord (p : Port) (w : Nat) (s : State) : State :=
  match p with
  | .producer =>
    { s with
      rp := { s.rp with phase := if sampling s then .idle else s.rp.phase }
      env := { s.env with
        sched := .producer :: s.env.sched
        producer := .word w :: s.env.producer
        samplePut := none } }
  | .consumer =>
    { s with env := { s.env with sched := .consumer :: s.env.sched, consumer := w :: s.env.consumer } }
  | .rp =>
    { s with
      rp := { s.rp with phase := .idle }
      env := { s.env with
        sched := .rp :: s.env.sched
        rp := .word w :: s.env.rp
        checkVerify := none } }

end Sys2Proof.Machine
end

