-- ==== Sys2Proof/Machine/Step.lean ====
section
/-! DEFINITION. One step of the machine: one port is served. The block fetches nothing from memory (R52): an operation is
what a port presents. -/

namespace Sys2Proof.Machine

/-- One step: take the turn and serve that port (R47, R56). -/
def step (s : State) : Host.Outcome State Fault Refusal := serve (nextTurn s) (afterTurn s)

/-- `s` with the instruction of `nbits` bits `w` presented on its port and that port served next (log 3). -/
def State.withFetchWord (s : State) (nbits w : Nat) : State :=
  presentWord (portOfWord (w % 2 ^ nbits)) (w % 2 ^ nbits) s

end Sys2Proof.Machine
end

