-- ==== Sys2Proof/Safety.lean ====
section
/-! DEFINITION. What counts as a safe state and a safe run, in the terms the claims use: the invariants of RB (R11, R17,
R15) and of RP (R23, R230), the FIFO that RB is read as, and runs of several operations. -/

namespace Sys2Proof.Machine

/-! ### RB -/

/-- Slot `i` holds an element (R17). -/
def slotWritten (rb : RbState) (i : Nat) : Prop := ∃ e, slotRead rb i = .next e

/-- Slot `i` is `Unwritten`: none of its bytes has a value (R17). -/
def slotUnwritten (rb : RbState) (i : Nat) : Prop :=
  ∀ j, j < rb.elementSize → readByte rb.mem (i * rb.elementSize + j) = none

/-- The invariants of RB: R11 while initialized, the reset values of R28 otherwise, and the form of the storage (R16,
R17). -/
structure RbInv (c : Cfg) (rb : RbState) : Prop where
  off : rb.initialized = false → rb = RbState.reset
  pow : rb.initialized = true → ∃ k, k < c.capW ∧ rb.capacity = 2 ^ k
  head : rb.initialized = true → rb.head < rb.capacity
  tail : rb.initialized = true → rb.tail < rb.capacity
  esz : rb.initialized = true → 1 ≤ rb.elementSize ∧ rb.elementSize < 2 ^ c.eszW
  fits : rb.initialized = true → exceedsStorage c rb.capacity rb.elementSize = false
  canon : Memory.wf rb.mem = true
  inside : ∀ a, rb.capacity * rb.elementSize ≤ a → readByte rb.mem a = none
  whole : ∀ i, i < rb.capacity → slotWritten rb i ∨ slotUnwritten rb i

/-- The live range: the slots `wrap(tail + j)` for `0 <= j < avail` are written (R15). -/
def LiveInv (c : Cfg) (rb : RbState) : Prop :=
  rb.initialized = true → ∀ j, j < availCount c rb → slotWritten rb ((rb.tail + j) % rb.capacity)

/-- RB read as a FIFO: its readable elements, oldest at `tail` (R14, R15). -/
def Holds (c : Cfg) (rb : RbState) (q : List Element) : Prop :=
  q.length = availCount c rb ∧
    ∀ j (h : j < q.length), slotRead rb ((rb.tail + j) % rb.capacity) = .next q[j]

/-- Overwrite-on-full on a FIFO of `capacity - 1` usable places: a put on a full one drops the oldest element. -/
def fifoPut (capacity : Nat) (q : List Element) (e : Element) : List Element :=
  if q.length = capacity - 1 then (q ++ [e]).drop 1 else q ++ [e]

/-! ### RP -/

/-- The level of chip-select after a bus history that starts at level `l`, if the history is disciplined: `CS` events
alternate, and every `Xfer` happens with chip-select asserted, has at least one byte and as many bytes back (R53, R230). -/
def busLevelFrom : BitVec 1 → List BusEvent → Option (BitVec 1)
  | l, [] => some l
  | l, .cs l' :: es => if l' = l then none else busLevelFrom l' es
  | l, .xfer tx rx :: es =>
    if l = 0#1 ∧ tx ≠ [] ∧ rx.length = tx.length then busLevelFrom l es else none

/-- The level after a history that starts released (R28). -/
def busLevel (h : List BusEvent) : Option (BitVec 1) := busLevelFrom 1#1 h

/-- The level of chip-select in each phase (R23, R175). -/
def phaseLevel : Phase → BitVec 1
  | .idle => 1#1
  | .sel => 1#1
  | .fSel => 1#1
  | .xfer => 0#1
  | .desel => 0#1
  | .fAddr => 0#1
  | .fMode => 0#1
  | .fPoll => 0#1
  | .fData => 0#1
  | .fDesel => 0#1

/-- The phases of the flash sequence (R22). -/
def flashPhase : Phase → Bool
  | .fSel => true
  | .fAddr => true
  | .fMode => true
  | .fPoll => true
  | .fData => true
  | .fDesel => true
  | .idle => false
  | .sel => false
  | .xfer => false
  | .desel => false

/-- The invariants of RP. -/
structure RpInv (c : Cfg) (rp : RpState) : Prop where
  level : rp.cs = phaseLevel rp.phase
  bus : busLevel rp.history = some rp.cs
  handle : rp.phase = .sel ∨ rp.phase = .xfer → c.validHandle rp.reg = true
  op : rp.phase ≠ .idle → (rp.op = .flashRead ↔ flashPhase rp.phase = true)
  poll : rp.phase = .fAddr ∨ rp.phase = .fMode ∨ rp.phase = .fSel → rp.pollCnt = 0
  limit : rp.phase = .fPoll → pollLimitReached c rp.pollCnt = false
  regStatus : rp.phase = .desel → rp.resStatus = .ok
  flashStatus : rp.phase = .fDesel → rp.resStatus = .ok ∨ rp.resStatus = .timeout
  flashClient : flashPhase rp.phase = true → rp.client = .port

/-- The invariant of the machine that every step keeps. -/
structure Inv (s : State) : Prop where
  cfg : s.cfg.wf = true
  rb : RbInv s.cfg s.rb
  rp : RpInv s.cfg s.rp

/-! ### The answers of the device along a flash sequence -/

/-- What the device answers to the `k`-th status read (from 0) of a flash sequence begun in `s`: the write frames of the
address and of the mode have taken `1 + wAddr` and `1 + wMode` bytes before it, each earlier status read `1 + wStatus`. -/
def statusAnswer (s : State) (wAddr wMode wStatus k : Nat) : List Byte :=
  deviceBytes (afterBytes s.env (1 + wAddr + (1 + wMode) + k * (1 + wStatus))) (1 + wStatus)

/-- The `k`-th status read (from 0) shows the busy bit set (R171). -/
def busyAt (s : State) (wAddr wMode wStatus k : Nat) : Bool :=
  deviceBusy s.cfg (readValue (statusAnswer s wAddr wMode wStatus k) wStatus)

/-- The bus events of a flash sequence up to and with its first `n` status reads (R170). -/
def flashEvents (s : State) (rowA rowM rowS : RegRow) (address : Data) (n : Nat) : List BusEvent :=
  [.cs 0#1,
    .xfer (writeFrame s.cfg rowA address) (deviceBytes s.env (1 + rowA.width.bytes)),
    .xfer (writeFrame s.cfg rowM s.cfg.modeCopyToOutput)
      (deviceBytes (afterBytes s.env (1 + rowA.width.bytes)) (1 + rowM.width.bytes))] ++
  (List.range n).map fun k =>
    .xfer (readFrame s.cfg rowS) (statusAnswer s rowA.width.bytes rowM.width.bytes rowS.width.bytes k)

/-- The bytes the device has answered along those events. -/
def flashBytes (rowA rowM rowS : RegRow) (n : Nat) : Nat :=
  1 + rowA.width.bytes + (1 + rowM.width.bytes) + n * (1 + rowS.width.bytes)

/-! ### Access modes -/

/-- The same configuration with every row's access mode replaced (R148). -/
def setAccess (a : Access) (s : State) : State :=
  { s with cfg := { s.cfg with regmap := s.cfg.regmap.map fun row => { row with access := a } } }

/-- An outcome with its next state mapped. -/
def mapNext (f : State → State) (o : Host.Outcome State Fault Refusal) : Host.Outcome State Fault Refusal :=
  andThen o fun t => .next (f t)

/-! ### Statuses -/

/-- The statuses an operation of RB can return (R209). -/
def allowedStatus : Instr → List Status
  | .init _ _ => [.ok, .invalidBufferState, .invalidSize, .noMemory]
  | .put _ => [.ok, .notInitialized]
  | .get => [.ok, .notInitialized, .getOnEmpty]
  | .getMany _ => [.ok, .notInitialized]
  | .isEmpty => [.ok]
  | .isFull => [.ok]
  | .destroy => [.ok]
  | .write _ _ => [.ok, .invalidPointer]
  | .read _ => [.ok, .invalidPointer]
  | .verify _ _ => [.ok, .invalidPointer]
  | .flashRead _ => [.ok, .timeout]
  | .flashWrite _ => []

/-! ### Runs of several operations -/

/-- Run a list of operations one after the other. -/
def execAll : List Instr → State → Host.Outcome State Fault Refusal
  | [], s => .next s
  | i :: is, s => andThen (exec i s) (execAll is)

/-- How many elements an operation returned, by its response: one for an element, the count for GETMANY. -/
def returnedCount : Response → Nat
  | ⟨_, .ok, .element _⟩ => 1
  | ⟨_, .ok, .many k _⟩ => k
  | _ => 0

/-- The elements returned by a list of responses. -/
def returnedTotal (rs : List Response) : Nat := (rs.map returnedCount).sum

/-- PUT discards an element exactly when the buffer is full (R101). -/
def discardOf (i : Instr) (s : State) : Nat :=
  match i with
  | .put _ => if isFullFlag s.cfg s.rb then 1 else 0
  | _ => 0

/-- The elements discarded by overwrite along a run (R112). -/
def discardTotal : List Instr → State → Nat
  | [], _ => 0
  | i :: is, s =>
    discardOf i s +
      match exec i s with
      | .next t => discardTotal is t
      | _ => 0

/-- The operations a run of R112 may hold: no INIT, no DESTROY, no RP operation. -/
def steadyOp : Instr → Bool
  | .put _ => true
  | .get => true
  | .getMany _ => true
  | .isEmpty => true
  | .isFull => true
  | _ => false

/-- An operation is a PUT. -/
def isPut : Instr → Bool
  | .put _ => true
  | _ => false

end Sys2Proof.Machine
end

