-- ==== Sys2Proof/Certificates/Slice0/Obligations.lean ====
section
/-! DEFINITION. The statements about SLRB, for the provers. Each docstring names the rule of spec/ it formalises. A premise
`RbInv` or `RpInv` rules out states no run reaches; that every step keeps them is `StepKeepsInv`, that reset has them
`ResetSatisfiesInv`. -/

open Sys2Proof Sys2Proof.Machine

/-! ### Encoding -/

/-- R71, R72: the decoder reads from an operation's command word that operation, with every operand at every value its
field admits. -/
def Obligations.DecodeEncodeRoundTrip : Prop :=
  ∀ (c : Cfg) (es : Nat) (i : Instr), i.wf c es = true → decode c es (encode c i) = .instr i

/-- R71, R72: what is decoded is well-formed, and its word is the decoded word up to the last bit of its format.
That bits above the format are ignored is the model's choice (log 11). -/
def Obligations.DecodedWordIsEncoding : Prop :=
  ∀ (c : Cfg) (es w : Nat) (i : Instr), decode c es w = .instr i →
    i.wf c es = true ∧ encode c i = w % 2 ^ formatBits c es i

/-- R71: a few command words written out from the tables of R71 and of 95_test_vectors, `CAP_W = ESZ_W = 8`. -/
def Obligations.SpecWordsDecode : Prop :=
  decode (exCfg none) 1 0x1040 = .instr (.init 4 1) ∧
  decode (exCfg none) 1 0x431 = .instr (.put [0x43#8]) ∧
  decode (exCfg none) 4 0x40302011 = .instr (.put [0x01#8, 0x02#8, 0x03#8, 0x04#8]) ∧
  decode (exCfg none) 1 0x93 = .instr (.getMany 9) ∧
  decode (exCfg none) 1 0x6 = .instr .destroy ∧
  decode (exCfg none) 1 0x12345678018 = .instr (.write 1#8 0x12345678#32) ∧
  decode (exCfg none) 1 0x99 = .instr (.read 9#8) ∧
  decode (exCfg none) 1 0xBEEF01A = .instr (.verify 1#8 0xBEEF#32) ∧
  decode (exCfg none) 1 0x123B = .instr (.flashRead 0x123#32)

/-- R78: exactly the opcodes 0x7 and 0xD to 0xF are reserved; a reserved opcode is refused on every port, and an operation
presented on a port that does not carry it is refused. -/
def Obligations.ReservedAndWrongPortRefused : Prop :=
  ∀ (c : Cfg) (es w op : Nat) (p : Port) (s : State) (i : Instr),
    (decode c es w = .reserved op ↔ op = w % 16 ∧ (op = 0x7 ∨ 0xD ≤ op)) ∧
    (decode s.cfg s.rb.elementSize w = .reserved op → issue p w s = .refused (.reservedOpcode op)) ∧
    (decode s.cfg s.rb.elementSize w = .instr i → i.port ≠ p → issue p w s = .refused .wrongPort)

/-- R174, R78: FLASH_WRITE is refused in every state. -/
def Obligations.FlashWriteIsRefused : Prop :=
  ∀ (operand : Data) (s : State), exec (.flashWrite operand) s = .refused .flashWriteReserved

/-! ### The step -/

/-- R56: the next turn is the schedule's, and then only the schedule moves on; without a schedule the only port that
has a move is served. The schedule as data is the model's choice (log 4). -/
def Obligations.TurnFollowsSchedule : Prop :=
  ∀ (s : State) (p : Port) (ps : List Port),
    (s.env.sched = p :: ps → nextTurn s = p ∧ afterTurn s = { s with env := { s.env with sched := ps } }) ∧
    (s.env.sched = [] → readyPorts s = [p] → nextTurn s = p ∧ afterTurn s = s)

/-- R9, R71, R176: when a port is served and the word presented on it decodes to an operation of that port, the step
is that operation's meaning, in the state with the turn and the word taken. The RP port needs an idle engine and no
WRITE_CHECKED in progress, the producer port no SAMPLE in progress. The queues of requests are the model's choice
(log 3, 17, 18). -/
def Obligations.StepRunsPresentedOperation : Prop :=
  ∀ (s : State) (w : Nat) (i : Instr), decode s.cfg s.rb.elementSize w = .instr i → nextTurn s = i.port →
    (∀ rest, i.port = .consumer → s.env.consumer = w :: rest →
      step s = exec i { afterTurn s with env := { (afterTurn s).env with consumer := rest } }) ∧
    (∀ rest, i.port = .producer → s.env.producer = .word w :: rest → sampling s = false → s.env.samplePut = none →
      step s = exec i { afterTurn s with env := { (afterTurn s).env with producer := rest } }) ∧
    (∀ rest, i.port = .rp → s.env.rp = .word w :: rest → s.rp.phase = .idle → s.env.checkVerify = none →
      step s = exec i { afterTurn s with env := { (afterTurn s).env with rp := rest } })

/-- R176: while the engine is busy WRITE, READ, VERIFY and FLASH_READ have no effect, and serving the RP unit
advances the engine and leaves every request presented. That a request stays presented is the model's choice (log
10). -/
def Obligations.BusyEngineHoldsRequests : Prop :=
  ∀ (s : State), s.rp.phase ≠ .idle →
    (∀ reg data, exec (.write reg data) s = .next s) ∧ (∀ reg, exec (.read reg) s = .next s) ∧
    (∀ reg expected, exec (.verify reg expected) s = .next s) ∧
    (∀ address, exec (.flashRead address) s = .next s) ∧
    (nextTurn s = .rp → step s = engineStep (afterTurn s) ∧
      ∀ t, step s = .next t → t.env.rp = s.env.rp)

/-- R177, R226: a busy engine holds a SAMPLE that is presented, and does not hold a PUT. That the SAMPLE stays
presented is the model's choice (log 10, 17). -/
def Obligations.BusyEngineHoldsSampleNotPut : Prop :=
  ∀ (s : State) (rest : List ProducerReq), s.rp.phase ≠ .idle → s.rp.client ≠ .sample → s.env.samplePut = none →
    nextTurn s = .producer →
    (s.env.producer = .sample :: rest → step s = .next (afterTurn s)) ∧
    (∀ w e, s.env.producer = .word w :: rest → decode s.cfg s.rb.elementSize w = .instr (.put e) →
      step s = exec (.put e) { afterTurn s with env := { (afterTurn s).env with producer := rest } })

/-- R27: capacity, elementSize and initialized change only by INIT and DESTROY: no other operation and no engine step
writes them, and a step that changes one of them serves the consumer port with a word that decodes to INIT or DESTROY. -/
def Obligations.ParametersChangeOnlyByInitAndDestroy : Prop :=
  (∀ (i : Instr) (s t : State), (i.opcode ≠ 0x0 ∧ i.opcode ≠ 0x6 ∧ exec i s = .next t) ∨ engineStep s = .next t →
    t.rb.initialized = s.rb.initialized ∧ t.rb.capacity = s.rb.capacity ∧ t.rb.elementSize = s.rb.elementSize) ∧
  (∀ (s t : State), step s = .next t →
    (t.rb.initialized = s.rb.initialized ∧ t.rb.capacity = s.rb.capacity ∧ t.rb.elementSize = s.rb.elementSize) ∨
    (nextTurn s = .consumer ∧ ∃ w rest, s.env.consumer = w :: rest ∧
      ((∃ capacity elementSize, decode s.cfg s.rb.elementSize w = .instr (.init capacity elementSize)) ∨
        decode s.cfg s.rb.elementSize w = .instr .destroy)))

/-- R20, R27: no step changes the configuration. -/
def Obligations.StepKeepsCfg : Prop :=
  ∀ (s t : State), step s = .next t → t.cfg = s.cfg

/-- R57: a step adds at most one event to the bus history and removes none; responses are added and never removed.
The two logs are the model's (log 16). -/
def Obligations.StepExtendsHistoryAndResponses : Prop :=
  ∀ (s t : State), step s = .next t →
    (t.rp.history = s.rp.history ∨ ∃ e, t.rp.history = s.rp.history ++ [e]) ∧
    (∃ rs, t.responses = s.responses ++ rs)

/-! ### Reset and the invariants -/

/-- R28: the reset state, for every configuration, in the values the spec gives. `resetCfg` is the model's choice
(log 2). -/
def Obligations.ResetHasSpecValues : Prop :=
  State.reset = State.resetWith resetCfg ∧
  ∀ c : Cfg,
    (State.resetWith c).rb.initialized = false ∧ (State.resetWith c).rb.capacity = 0 ∧
    (State.resetWith c).rb.elementSize = 0 ∧ (State.resetWith c).rb.head = 0 ∧ (State.resetWith c).rb.tail = 0 ∧
    (State.resetWith c).rb.mem = [] ∧ (State.resetWith c).rp.phase = .idle ∧ (State.resetWith c).rp.cs = 1#1 ∧
    (State.resetWith c).cfg = c

/-- The reset state satisfies the invariant, for every configuration within the constraints of R7. -/
def Obligations.ResetSatisfiesInv : Prop :=
  ∀ c : Cfg, c.wf = true → Inv (State.resetWith c) ∧ LiveInv c (State.resetWith c).rb

/-- R11, R17, R23, R230: every step keeps the invariants of RB (capacity a power of two, indices below it, storage
canonical, inside its bounds, slot by slot written or not) and of RP (chip-select follows the phase, the bus history is
disciplined, the operation in flight is a valid one). -/
def Obligations.StepKeepsInv : Prop :=
  ∀ (s t : State), Inv s → step s = .next t → Inv t

/-- R15: under `GETMANY_LIMIT = avail` every step keeps the live range written. -/
def Obligations.StepKeepsLiveRange : Prop :=
  ∀ (s t : State), Inv s → s.cfg.getManyLimit = .avail → LiveInv s.cfg s.rb → step s = .next t → LiveInv t.cfg t.rb

/-- R17, R58: in a state of the invariants, under `GETMANY_LIMIT = avail`, no step faults: no `Unwritten` slot is read, no
index leaves the storage, no handle misses the register table. -/
def Obligations.NoStepFaults : Prop :=
  ∀ (s : State) (r : Fault), Inv s → s.cfg.getManyLimit = .avail → LiveInv s.cfg s.rb → step s ≠ .fault r

/-! ### RB operations -/

/-- R100: INIT. The checks in their order, each failing one leaving everything but the response as it was; success leaves
an empty buffer with every slot `Unwritten`, full exactly when its capacity is 1. -/
def Obligations.InitResult : Prop :=
  ∀ (s : State) (capacity elementSize : Nat), capacity < 2 ^ s.cfg.capW → elementSize < 2 ^ s.cfg.eszW →
    (s.rb.initialized = true → exec (.init capacity elementSize) s =
      .next { s with responses := s.responses ++ [⟨.port .consumer, .invalidBufferState, .none⟩] }) ∧
    (s.rb.initialized = false → (¬∃ k, capacity = 2 ^ k) → exec (.init capacity elementSize) s =
      .next { s with responses := s.responses ++ [⟨.port .consumer, .invalidSize, .none⟩] }) ∧
    (s.rb.initialized = false → (∃ k, capacity = 2 ^ k) → elementSize = 0 → exec (.init capacity elementSize) s =
      .next { s with responses := s.responses ++ [⟨.port .consumer, .invalidSize, .none⟩] }) ∧
    (s.rb.initialized = false → (∃ k, capacity = 2 ^ k) → elementSize ≠ 0 →
      (∃ n, s.cfg.storageBytes = some n ∧ n < capacity * elementSize) → exec (.init capacity elementSize) s =
      .next { s with responses := s.responses ++ [⟨.port .consumer, .noMemory, .none⟩] }) ∧
    (s.rb.initialized = false → (∃ k, capacity = 2 ^ k) → elementSize ≠ 0 →
      (∀ n, s.cfg.storageBytes = some n → capacity * elementSize ≤ n) →
      ∃ t, exec (.init capacity elementSize) s = .next t ∧
        t = { s with
          rb := { initialized := true, capacity := capacity, elementSize := elementSize, head := 0, tail := 0, mem := [] }
          responses := s.responses ++ [⟨.port .consumer, .ok, .none⟩] } ∧
        isEmptyFlag t.rb = true ∧ isFullFlag t.cfg t.rb = decide (capacity = 1))

/-- R101: PUT. On an uninitialized buffer `NotInitialized` and nothing else; otherwise the element is stored in slot `head`,
`head` advances, and `tail` advances too exactly when the new `head` equals it. Every other byte of the storage and every
other part of the state stays. Afterwards the buffer is not empty (unless its capacity is 1), and full exactly when at most
one place was free. -/
def Obligations.PutResult : Prop :=
  ∀ (s : State) (e : Element), RbInv s.cfg s.rb →
    (s.rb.initialized = false → exec (.put e) s =
      .next { s with responses := s.responses ++ [⟨.port .producer, .notInitialized, .none⟩] }) ∧
    (s.rb.initialized = true → e.length = s.rb.elementSize →
      ∃ t mem, exec (.put e) s = .next t ∧
        t = { s with
          rb := { s.rb with
            head := (s.rb.head + 1) % s.rb.capacity
            tail := if (s.rb.head + 1) % s.rb.capacity = s.rb.tail then (s.rb.tail + 1) % s.rb.capacity else s.rb.tail
            mem := mem }
          responses := s.responses ++ [⟨.port .producer, .ok, .none⟩] } ∧
        slotRead t.rb s.rb.head = .next e ∧
        (∀ a, a < s.rb.head * s.rb.elementSize ∨ s.rb.head * s.rb.elementSize + s.rb.elementSize ≤ a →
          readByte mem a = readByte s.rb.mem a) ∧
        (2 ≤ s.rb.capacity → isEmptyFlag t.rb = false) ∧
        (isFullFlag t.cfg t.rb = true ↔
          availCount s.cfg s.rb + 2 = s.rb.capacity ∨ availCount s.cfg s.rb + 1 = s.rb.capacity))

/-- U16, precondition of R41: PUT of an element of another length on an initialized buffer is refused. The refusal
is the model's form of it (log 13). -/
def Obligations.PutOfWrongLengthIsRefused : Prop :=
  ∀ (s : State) (e : Element), RbInv s.cfg s.rb → s.rb.initialized = true → e.length ≠ s.rb.elementSize →
    exec (.put e) s = .refused .elementLength

/-- R102: GET. `NotInitialized`, then `GetOnEmpty`, each with nothing else changed; otherwise the element of slot `tail` is
returned and `tail` alone advances. Afterwards the buffer is not full (unless its capacity is 1) and empty exactly when one
element was readable. -/
def Obligations.GetResult : Prop :=
  ∀ (s : State), RbInv s.cfg s.rb →
    (s.rb.initialized = false → exec .get s =
      .next { s with responses := s.responses ++ [⟨.port .consumer, .notInitialized, .none⟩] }) ∧
    (s.rb.initialized = true → s.rb.head = s.rb.tail → exec .get s =
      .next { s with responses := s.responses ++ [⟨.port .consumer, .getOnEmpty, .none⟩] }) ∧
    (∀ e, s.rb.initialized = true → s.rb.head ≠ s.rb.tail → slotRead s.rb s.rb.tail = .next e →
      ∃ t, exec .get s = .next t ∧
        t = { s with
          rb := { s.rb with tail := (s.rb.tail + 1) % s.rb.capacity }
          responses := s.responses ++ [⟨.port .consumer, .ok, .element e⟩] } ∧
        isFullFlag t.cfg t.rb = false ∧
        (isEmptyFlag t.rb = true ↔ availCount s.cfg s.rb = 1))

/-- R103: GETMANY, under either value of `GETMANY_LIMIT`. `(NotInitialized, 0)`; `(Ok, 0)` for `count = 0` with nothing
touched; otherwise `k = min(count, avail)` or `min(count, capacity)` elements from `tail` on, in order, and `tail` alone
moves by `k`. If one of those slots is `Unwritten` the run faults. -/
def Obligations.GetManyResult : Prop :=
  ∀ (s : State) (count k : Nat), RbInv s.cfg s.rb → count < 2 ^ s.cfg.capW →
    (k = match s.cfg.getManyLimit with
      | .avail => min count (availCount s.cfg s.rb)
      | .capacity => min count s.rb.capacity) →
    (s.rb.initialized = false → exec (.getMany count) s =
      .next { s with responses := s.responses ++ [⟨.port .consumer, .notInitialized, .many 0 []⟩] }) ∧
    (s.rb.initialized = true → count = 0 → exec (.getMany count) s =
      .next { s with responses := s.responses ++ [⟨.port .consumer, .ok, .many 0 []⟩] }) ∧
    (∀ es : List Element, s.rb.initialized = true → count ≠ 0 → es.length = k →
      (∀ j (h : j < es.length), slotRead s.rb ((s.rb.tail + j) % s.rb.capacity) = .next es[j]) →
      exec (.getMany count) s = .next { s with
        rb := { s.rb with tail := (s.rb.tail + k) % s.rb.capacity }
        responses := s.responses ++ [⟨.port .consumer, .ok, .many k es⟩] }) ∧
    (∀ j, s.rb.initialized = true → j < k → slotUnwritten s.rb ((s.rb.tail + j) % s.rb.capacity) →
      exec (.getMany count) s = .fault .unwrittenSlot)

/-- R104: ISEMPTY returns `head == tail` and changes nothing; on an uninitialized buffer it returns 1. -/
def Obligations.IsEmptyResult : Prop :=
  ∀ (s : State), RbInv s.cfg s.rb →
    exec .isEmpty s =
      .next { s with responses := s.responses ++ [⟨.port .consumer, .ok, .bit (decide (s.rb.head = s.rb.tail))⟩] } ∧
    (s.rb.initialized = false → s.rb.head = s.rb.tail)

/-- R105: ISFULL returns whether the place after `head` is `tail` and changes nothing; on an uninitialized buffer it
returns 0. -/
def Obligations.IsFullResult : Prop :=
  ∀ (s : State), RbInv s.cfg s.rb → 1 ≤ s.cfg.capW →
    (s.rb.initialized = true → exec .isFull s = .next { s with
      responses := s.responses ++
        [⟨.port .consumer, .ok, .bit (decide ((s.rb.head + 1) % s.rb.capacity = s.rb.tail))⟩] }) ∧
    (s.rb.initialized = false → exec .isFull s =
      .next { s with responses := s.responses ++ [⟨.port .consumer, .ok, .bit false⟩] })

/-- R106: DESTROY returns `Ok` in every state and leaves RB in its reset state, everything else as it was. -/
def Obligations.DestroyResult : Prop :=
  ∀ (s : State), exec .destroy s = .next { s with
    rb := { initialized := false, capacity := 0, elementSize := 0, head := 0, tail := 0, mem := [] }
    responses := s.responses ++ [⟨.port .consumer, .ok, .none⟩] }

/-- R14: `avail` lies below `capacity`, is 0 exactly when the buffer is empty and `capacity - 1` exactly when it is full;
R13: with a capacity of at least 2 it is never both. The spec marks both sentences as derived (from R11 to R13). -/
def Obligations.AvailCountsReadable : Prop :=
  ∀ (c : Cfg) (rb : RbState), RbInv c rb → rb.initialized = true →
    availCount c rb < rb.capacity ∧
    (availCount c rb = 0 ↔ isEmptyFlag rb = true) ∧
    (availCount c rb + 1 = rb.capacity ↔ isFullFlag c rb = true) ∧
    (2 ≤ rb.capacity → ¬(isEmptyFlag rb = true ∧ isFullFlag c rb = true))

/-- R51: the two contiguous copies of RunRead give what single reads at successive wrapped indices give. -/
def Obligations.RunReadIsWrappedSlotReads : Prop :=
  ∀ (c : Cfg) (rb : RbState) (t k : Nat) (es : List Element), RbInv c rb → rb.initialized = true →
    t < rb.capacity → k ≤ rb.capacity →
    (runRead rb t k = .next es ↔
      es.length = k ∧ ∀ j (h : j < es.length), slotRead rb ((t + j) % rb.capacity) = .next es[j])

/-- R109: GETMANY of `n` readable elements gives the sequence that `n` GETs give and leaves the same RB state, under either
`GETMANY_LIMIT`; under `avail` the same holds of every `n` with `min(n, avail)` GETs. The spec marks that last
clause as derived (from R102 and R103). -/
def Obligations.GetManyEqualsSingleGets : Prop :=
  ∀ (s : State) (n m : Nat), RbInv s.cfg s.rb → s.rb.initialized = true → LiveInv s.cfg s.rb → n < 2 ^ s.cfg.capW →
    m = min n (availCount s.cfg s.rb) → (s.cfg.getManyLimit = .avail ∨ n ≤ availCount s.cfg s.rb) →
    ∃ t u es, exec (.getMany n) s = .next t ∧ execAll (List.replicate m .get) s = .next u ∧
      es.length = m ∧ t.rb = u.rb ∧
      t.responses = s.responses ++ [⟨.port .consumer, .ok, .many m es⟩] ∧
      u.responses = s.responses ++ es.map fun e => ⟨.port .consumer, .ok, .element e⟩

/-- R14, R15, R101, R102, R103: RB is a FIFO of `capacity - 1` places with overwrite-on-full. Whatever queue its readable
elements are, PUT appends (and drops the oldest of a full one), GET returns and removes the oldest, GETMANY (under
`GETMANY_LIMIT = avail`) the oldest `n`, ISEMPTY and ISFULL tell whether it is empty or has `capacity - 1` elements. -/
def Obligations.RbRefinesOverwritingFifo : Prop :=
  ∀ (s : State) (q : List Element), RbInv s.cfg s.rb → s.rb.initialized = true → Holds s.cfg s.rb q →
    (∀ e, e.length = s.rb.elementSize →
      ∃ t, exec (.put e) s = .next t ∧ Holds t.cfg t.rb (fifoPut s.rb.capacity q e)) ∧
    (q = [] → exec .get s =
      .next { s with responses := s.responses ++ [⟨.port .consumer, .getOnEmpty, .none⟩] }) ∧
    (∀ x r, q = x :: r → ∃ t, exec .get s = .next t ∧ Holds t.cfg t.rb r ∧
      t.responses = s.responses ++ [⟨.port .consumer, .ok, .element x⟩]) ∧
    (∀ n, n < 2 ^ s.cfg.capW → s.cfg.getManyLimit = .avail →
      ∃ t, exec (.getMany n) s = .next t ∧ Holds t.cfg t.rb (q.drop n) ∧
        t.responses = s.responses ++ [⟨.port .consumer, .ok, .many (min n q.length) (q.take n)⟩]) ∧
    exec .isEmpty s =
      .next { s with responses := s.responses ++ [⟨.port .consumer, .ok, .bit (decide (q = []))⟩] } ∧
    exec .isFull s = .next { s with
      responses := s.responses ++ [⟨.port .consumer, .ok, .bit (decide (q.length + 1 = s.rb.capacity))⟩] }

/-- R110: from a fresh buffer of capacity `C`, after any number of PUTs ISFULL is 1 exactly when there were at least
`C - 1`, and the readable elements are the last `C - 1` of them. -/
def Obligations.PutsFillAndOverwrite : Prop :=
  ∀ (s : State) (k elementSize : Nat) (es : List Element), k < s.cfg.capW →
    s.rb = freshBuffer (2 ^ k) elementSize → RbInv s.cfg s.rb → (∀ e ∈ es, e.length = elementSize) →
    ∃ t, execAll (es.map .put) s = .next t ∧
      isFullFlag t.cfg t.rb = decide (2 ^ k - 1 ≤ es.length) ∧
      Holds t.cfg t.rb (es.drop (es.length - (2 ^ k - 1)))

/-- R111: with capacity 1 the buffer is always empty and always full, GET always returns `GetOnEmpty`, GETMANY under
`GETMANY_LIMIT = avail` always 0 elements, and PUT writes slot 0 and leaves both indices 0. -/
def Obligations.CapacityOneNeverReadable : Prop :=
  ∀ (s : State), RbInv s.cfg s.rb → s.rb.initialized = true → s.rb.capacity = 1 →
    s.rb.head = 0 ∧ s.rb.tail = 0 ∧
    exec .isEmpty s = .next { s with responses := s.responses ++ [⟨.port .consumer, .ok, .bit true⟩] } ∧
    exec .isFull s = .next { s with responses := s.responses ++ [⟨.port .consumer, .ok, .bit true⟩] } ∧
    exec .get s = .next { s with responses := s.responses ++ [⟨.port .consumer, .getOnEmpty, .none⟩] } ∧
    (∀ n, n < 2 ^ s.cfg.capW → s.cfg.getManyLimit = .avail → exec (.getMany n) s =
      .next { s with responses := s.responses ++ [⟨.port .consumer, .ok, .many 0 []⟩] }) ∧
    (∀ e, e.length = s.rb.elementSize → ∃ t, exec (.put e) s = .next t ∧ t.rb.head = 0 ∧ t.rb.tail = 0 ∧
      slotRead t.rb 0 = .next e)

/-- R112: over a run of RB operations without INIT and DESTROY, under `GETMANY_LIMIT = avail`: the elements discarded are
the PUTs less the elements returned less the change of `avail`. -/
def Obligations.DiscardsAccountForLoss : Prop :=
  ∀ (is : List Instr) (s t : State), RbInv s.cfg s.rb → s.rb.initialized = true → s.cfg.getManyLimit = .avail →
    (∀ i ∈ is, steadyOp i = true) → execAll is s = .next t →
    is.countP isPut + availCount s.cfg s.rb =
      discardTotal is s + returnedTotal (t.responses.drop s.responses.length) + availCount t.cfg t.rb

/-- R200, R203, R209: an operation of RB returns one response, on its own port, with a status of its list, and if that is
not `Ok` nothing else changes. -/
def Obligations.RbErrorChangesNothing : Prop :=
  ∀ (i : Instr) (s t : State), i.port ≠ .rp → exec i s = .next t →
    ∃ st res, st ∈ allowedStatus i ∧ t.responses = s.responses ++ [⟨.port i.port, st, res⟩] ∧
      (st ≠ .ok → t = { s with responses := t.responses })

/-- An operation of RB touches neither RP, the inputs nor the configuration (R1, R46). -/
def Obligations.RbOperationsLeaveRp : Prop :=
  ∀ (i : Instr) (s t : State), i.port ≠ .rp → exec i s = .next t → t.rp = s.rp ∧ t.env = s.env ∧ t.cfg = s.cfg

/-! ### RP operations -/

/-- R73, R74, R77: the write frame. -/
def Obligations.WriteFrameLayout : Prop :=
  ∀ (c : Cfg) (row : RegRow) (d : Data),
    (writeFrame c row d).length = 1 + row.width.bytes ∧
    (writeFrame c row d)[0]? = some (row.addr ||| c.writeFlag) ∧
    ∀ i, i < row.width.bytes →
      (writeFrame c row d)[1 + i]? = some ((d >>> (8 * (row.width.bytes - 1 - i)) &&& 0xFF#32).setWidth 8)

/-- R75, R77: the read frame. -/
def Obligations.ReadFrameLayout : Prop :=
  ∀ (c : Cfg) (row : RegRow),
    (readFrame c row).length = 1 + row.width.bytes ∧
    (readFrame c row)[0]? = some (row.addr ||| c.readFlag) ∧
    ∀ i, i < row.width.bytes → (readFrame c row)[1 + i]? = some 0x00#8

/-- R76: the value of a read is the big-endian sum over the bytes after the first, as an unsigned number. -/
def Obligations.ReadValueIsBigEndianSum : Prop :=
  ∀ (width : RegWidth) (rx : List Byte), rx.length = 1 + width.bytes →
    (readValue rx width.bytes).toNat =
      ((List.range width.bytes).map fun i => (rx.getD (1 + i) 0).toNat * 2 ^ (8 * (width.bytes - 1 - i))).sum

/-- R140: with an idle engine a handle that is no row returns `InvalidPointer` from WRITE, READ and VERIFY, with no
bus event and nothing else changed. That the response carries no result is the model's choice (log 15). -/
def Obligations.InvalidHandleReturnsInvalidPointer : Prop :=
  ∀ (s : State) (reg : Handle), s.rp.phase = .idle → s.cfg.nRegs ≤ reg.toNat →
    (∀ data, exec (.write reg data) s =
      .next { s with responses := s.responses ++ [⟨.port .rp, .invalidPointer, .none⟩] }) ∧
    exec (.read reg) s = .next { s with responses := s.responses ++ [⟨.port .rp, .invalidPointer, .none⟩] } ∧
    (∀ expected, exec (.verify reg expected) s =
      .next { s with responses := s.responses ++ [⟨.port .rp, .invalidPointer, .none⟩] })

/-- R141, R147: WRITE with a valid handle. It is accepted; the three engine steps after it are `CS(0)`, one `Xfer`
of the write frame, `CS(1)`, through the phases SEL, XFER, DESEL; it returns `Ok` whatever the device answers, and
nothing else changes but the latches of RP and the device's answers. That `exec` is the acceptance is the model's
choice (log 9), as are the latches kept (log 14). -/
def Obligations.WriteRunsBracketedFrame : Prop :=
  ∀ (s : State) (reg : Handle) (data : Data) (row : RegRow), s.rp.phase = .idle →
    s.cfg.regmap[reg.toNat]? = some row →
    ∃ t t₁ t₂ u, exec (.write reg data) s = .next t ∧ t.rp.phase = .sel ∧ t.rp.cs = s.rp.cs ∧
      engineStep t = .next t₁ ∧ t₁.rp.phase = .xfer ∧ t₁.rp.cs = 0#1 ∧
      engineStep t₁ = .next t₂ ∧ t₂.rp.phase = .desel ∧ t₂.rp.cs = 0#1 ∧
      engineStep t₂ = .next u ∧
      u = { s with
        rp := { s.rp with
          phase := .idle, cs := 1#1, op := .write, reg := reg, data := data, client := .port, resStatus := .ok
          history := s.rp.history ++
            [.cs 0#1, .xfer (writeFrame s.cfg row data) (deviceBytes s.env (1 + row.width.bytes)), .cs 1#1] }
        env := afterBytes s.env (1 + row.width.bytes)
        responses := s.responses ++ [⟨.port .rp, .ok, .none⟩] }

/-- R142, R147: READ with a valid handle. As WRITE, with the read frame; it returns the big-endian value of the
bytes the device answered after the first. The model's choices: log 9, 14. -/
def Obligations.ReadReturnsDeviceValue : Prop :=
  ∀ (s : State) (reg : Handle) (row : RegRow), s.rp.phase = .idle →
    s.cfg.regmap[reg.toNat]? = some row →
    ∃ t t₁ t₂ u v, exec (.read reg) s = .next t ∧ t.rp.phase = .sel ∧ t.rp.cs = s.rp.cs ∧
      engineStep t = .next t₁ ∧ t₁.rp.phase = .xfer ∧ t₁.rp.cs = 0#1 ∧
      engineStep t₁ = .next t₂ ∧ t₂.rp.phase = .desel ∧ t₂.rp.cs = 0#1 ∧
      engineStep t₂ = .next u ∧
      v = readValue (deviceBytes s.env (1 + row.width.bytes)) row.width.bytes ∧
      u = { s with
        rp := { s.rp with
          phase := .idle, cs := 1#1, op := .read, reg := reg, client := .port, resStatus := .ok, resValue := v
          history := s.rp.history ++
            [.cs 0#1, .xfer (readFrame s.cfg row) (deviceBytes s.env (1 + row.width.bytes)), .cs 1#1] }
        env := afterBytes s.env (1 + row.width.bytes)
        responses := s.responses ++ [⟨.port .rp, .ok, .value v⟩] }

/-- R143: VERIFY with a valid handle. The bus events of one READ; it returns `Ok` with the 32-bit comparison,
`expected` unmasked. The model's choices: log 9, 14. -/
def Obligations.VerifyComparesAllBits : Prop :=
  ∀ (s : State) (reg : Handle) (expected : Data) (row : RegRow), s.rp.phase = .idle →
    s.cfg.regmap[reg.toNat]? = some row →
    ∃ t u v, exec (.verify reg expected) s = .next t ∧ t.rp.phase = .sel ∧ engineRun 3 t = .next u ∧
      v = readValue (deviceBytes s.env (1 + row.width.bytes)) row.width.bytes ∧
      u = { s with
        rp := { s.rp with
          phase := .idle, cs := 1#1, op := .verify, reg := reg, data := expected, client := .port, resStatus := .ok
          resValue := v
          history := s.rp.history ++
            [.cs 0#1, .xfer (readFrame s.cfg row) (deviceBytes s.env (1 + row.width.bytes)), .cs 1#1] }
        env := afterBytes s.env (1 + row.width.bytes)
        responses := s.responses ++ [⟨.port .rp, .ok, .bit (decide (v = expected))⟩] }

/-- R146: WRITE then READ of one register, against a device whose answer to the READ echoes the data bytes of the
write frame, returns the written value cut to the register's width. The model's choice: log 9. -/
def Obligations.EchoedWriteReadsBack : Prop :=
  ∀ (s : State) (reg : Handle) (d : Data) (row : RegRow) (a : List Byte) (x : Byte) (rest : List Byte),
    s.rp.phase = .idle → s.cfg.regmap[reg.toNat]? = some row → a.length = 1 + row.width.bytes →
    s.env.answers = a ++ (x :: (writeFrame s.cfg row d).drop 1) ++ rest →
    ∃ t u v, andThen (exec (.write reg d) s) (engineRun 3) = .next t ∧
      andThen (exec (.read reg) t) (engineRun 3) = .next u ∧
      u.responses = s.responses ++ [⟨.port .rp, .ok, .none⟩, ⟨.port .rp, .ok, .value v⟩] ∧
      v.toNat = d.toNat % 2 ^ (8 * row.width.bytes)

/-- R148: the access mode of a register row changes nothing: a step of the machine with every access mode replaced is the
step with the access modes as they were. -/
def Obligations.AccessModeIsNotRead : Prop :=
  ∀ (a : Access) (s : State), step (setAccess a s) = mapNext (setAccess a) (step s)

/-- R178, R1: no operation of RP and no step of the engine touches RB or the configuration. -/
def Obligations.RpOperationsLeaveRb : Prop :=
  ∀ (i : Instr) (s t : State),
    (i.port = .rp → exec i s = .next t → t.rb = s.rb ∧ t.cfg = s.cfg) ∧
    (engineStep s = .next t → t.rb = s.rb ∧ t.cfg = s.cfg)

/-- R209 for RP: what is presented returns nothing or `InvalidPointer` (FLASH_READ nothing); an engine step returns a
response only from DESEL, with `Ok`, and from F_DESEL, with `Ok` or `Timeout`. For an operation issued on the port itself. -/
def Obligations.RpReturnsItsStatuses : Prop :=
  ∀ (s t : State), RpInv s.cfg s.rp → s.rp.client = .port →
    (∀ i, i.port = .rp → exec i s = .next t →
      t.responses = s.responses ∨
        (.invalidPointer ∈ allowedStatus i ∧
          t.responses = s.responses ++ [⟨.port .rp, .invalidPointer, .none⟩])) ∧
    (engineStep s = .next t →
      (s.rp.phase ≠ .desel ∧ s.rp.phase ≠ .fDesel → t.responses = s.responses) ∧
      (s.rp.phase = .desel → ∃ res, t.responses = s.responses ++ [⟨.port .rp, .ok, res⟩]) ∧
      (s.rp.phase = .fDesel → (∃ v, t.responses = s.responses ++ [⟨.port .rp, .ok, .value v⟩]) ∨
        t.responses = s.responses ++ [⟨.port .rp, .timeout, .none⟩]))

/-! ### The sequencer and the flash sequence -/

/-- R175: the phase table. In a state of the invariants the engine always has its step; each phase performs the event of its
row and goes to the phase of its row. -/
def Obligations.EngineFollowsPhaseTable : Prop :=
  ∀ (s : State), s.cfg.wf = true → RpInv s.cfg s.rp →
    ∃ t, engineStep s = .next t ∧
      match s.rp.phase with
      | .idle => t = s
      | .sel => t.rp.phase = .xfer ∧ t.rp.history = s.rp.history ++ [.cs 0#1]
      | .xfer => t.rp.phase = .desel ∧ ∃ row rx, s.cfg.row s.rp.reg = some row ∧ t.rp.history = s.rp.history ++
          [.xfer (if s.rp.op = .write then writeFrame s.cfg row s.rp.data else readFrame s.cfg row) rx]
      | .desel => t.rp.phase = .idle ∧ t.rp.history = s.rp.history ++ [.cs 1#1]
      | .fSel => t.rp.phase = .fAddr ∧ t.rp.history = s.rp.history ++ [.cs 0#1]
      | .fAddr => t.rp.phase = .fMode ∧ ∃ row rx, s.cfg.row s.cfg.regFlashAddr = some row ∧
          t.rp.history = s.rp.history ++ [.xfer (writeFrame s.cfg row s.rp.data) rx]
      | .fMode => t.rp.phase = .fPoll ∧ ∃ row rx, s.cfg.row s.cfg.regFlashMode = some row ∧
          t.rp.history = s.rp.history ++ [.xfer (writeFrame s.cfg row s.cfg.modeCopyToOutput) rx]
      | .fPoll => t.rp.pollCnt = s.rp.pollCnt + 1 ∧ ∃ row rx, s.cfg.row s.cfg.regStatus = some row ∧
          t.rp.history = s.rp.history ++ [.xfer (readFrame s.cfg row) rx] ∧
          t.rp.phase =
            if (readValue rx row.width.bytes).getLsbD s.cfg.busyBit = false then .fData
            else if ∃ n ∈ s.cfg.pollLimit, n ≤ s.rp.pollCnt + 1 then .fDesel else .fPoll
      | .fData => t.rp.phase = .fDesel ∧ ∃ row rx, s.cfg.row s.cfg.regFlashDataOut = some row ∧
          t.rp.history = s.rp.history ++ [.xfer (readFrame s.cfg row) rx]
      | .fDesel => t.rp.phase = .idle ∧ t.rp.history = s.rp.history ++ [.cs 1#1]

/-- R177, R171: whatever port is served, a step leaves F_POLL only by a status read: to F_DATA when it shows the bit clear,
to F_DESEL when it shows busy and the limit is reached. -/
def Obligations.PollLeavesOnlyByStatusRead : Prop :=
  ∀ (s t : State), s.rp.phase = .fPoll → step s = .next t →
    t.rp = s.rp ∨
    (nextTurn s = .rp ∧ t.rp.pollCnt = s.rp.pollCnt + 1 ∧ ∃ row, s.cfg.row s.cfg.regStatus = some row ∧
      ((t.rp.phase = .fPoll ∧ deviceBusy s.cfg (valueRead (afterTurn s) row) = true ∧
          pollLimitReached s.cfg (s.rp.pollCnt + 1) = false) ∨
        (t.rp.phase = .fData ∧ deviceBusy s.cfg (valueRead (afterTurn s) row) = false) ∨
        (t.rp.phase = .fDesel ∧ deviceBusy s.cfg (valueRead (afterTurn s) row) = true ∧
          pollLimitReached s.cfg (s.rp.pollCnt + 1) = true)))

/-- R170, R173: FLASH_READ that ends after `n + 1` status reads, the first `n` busy and the last clear, within the
limit. Chip-select is asserted once and released once around the address write, the mode select, the status reads
and the data read; the value of the data read is returned. The model's choices: log 9, 14. -/
def Obligations.FlashReadReturnsDataOut : Prop :=
  ∀ (s : State) (address : Data) (rowA rowM rowS rowD : RegRow) (n : Nat), s.rp.phase = .idle →
    s.cfg.row s.cfg.regFlashAddr = some rowA → s.cfg.row s.cfg.regFlashMode = some rowM →
    s.cfg.row s.cfg.regStatus = some rowS → s.cfg.row s.cfg.regFlashDataOut = some rowD →
    (∀ k, k < n → busyAt s rowA.width.bytes rowM.width.bytes rowS.width.bytes k = true) →
    busyAt s rowA.width.bytes rowM.width.bytes rowS.width.bytes n = false →
    (∀ limit, s.cfg.pollLimit = some limit → n + 1 ≤ limit) →
    ∃ t u rx v, exec (.flashRead address) s = .next t ∧ engineRun (n + 6) t = .next u ∧
      rx = deviceBytes (afterBytes s.env (flashBytes rowA rowM rowS (n + 1))) (1 + rowD.width.bytes) ∧
      v = readValue rx rowD.width.bytes ∧
      u = { s with
        rp := { s.rp with
          phase := .idle, cs := 1#1, pollCnt := n + 1, op := .flashRead, data := address, client := .port
          resStatus := .ok, resValue := v
          history := s.rp.history ++ flashEvents s rowA rowM rowS address (n + 1) ++
            [.xfer (readFrame s.cfg rowD) rx, .cs 1#1] }
        env := afterBytes s.env (flashBytes rowA rowM rowS (n + 1) + (1 + rowD.width.bytes))
        responses := s.responses ++ [⟨.port .rp, .ok, .value v⟩] }

/-- R172: with `POLL_LIMIT = n` and `n` status reads that all show busy, FLASH_READ releases chip-select without
reading the data-output register and returns `Timeout` with no value. The model's choices: log 9, 14. -/
def Obligations.FlashReadTimesOut : Prop :=
  ∀ (s : State) (address : Data) (rowA rowM rowS : RegRow) (n : Nat), s.rp.phase = .idle →
    s.cfg.row s.cfg.regFlashAddr = some rowA → s.cfg.row s.cfg.regFlashMode = some rowM →
    s.cfg.row s.cfg.regStatus = some rowS → s.cfg.pollLimit = some n → 1 ≤ n →
    (∀ k, k < n → busyAt s rowA.width.bytes rowM.width.bytes rowS.width.bytes k = true) →
    ∃ t u, exec (.flashRead address) s = .next t ∧ engineRun (n + 4) t = .next u ∧
      u = { s with
        rp := { s.rp with
          phase := .idle, cs := 1#1, pollCnt := n, op := .flashRead, data := address, client := .port
          resStatus := .timeout
          history := s.rp.history ++ flashEvents s rowA rowM rowS address n ++ [.cs 1#1] }
        env := afterBytes s.env (flashBytes rowA rowM rowS n)
        responses := s.responses ++ [⟨.port .rp, .timeout, .none⟩] }

/-- R177, R172: with `POLL_LIMIT = none`, as long as the device answers busy FLASH_READ stays in F_POLL with
chip-select asserted and returns nothing, for any number of status reads. The model's choices: log 9, 14. -/
def Obligations.UnboundedPollKeepsPolling : Prop :=
  ∀ (s : State) (address : Data) (rowA rowM rowS : RegRow) (n : Nat), s.rp.phase = .idle →
    s.cfg.row s.cfg.regFlashAddr = some rowA → s.cfg.row s.cfg.regFlashMode = some rowM →
    s.cfg.row s.cfg.regStatus = some rowS → s.cfg.pollLimit = none →
    (∀ k, k < n → busyAt s rowA.width.bytes rowM.width.bytes rowS.width.bytes k = true) →
    ∃ t u, exec (.flashRead address) s = .next t ∧ engineRun (n + 3) t = .next u ∧
      u = { s with
        rp := { s.rp with
          phase := .fPoll, cs := 0#1, pollCnt := n, op := .flashRead, data := address, client := .port
          history := s.rp.history ++ flashEvents s rowA rowM rowS address n }
        env := afterBytes s.env (flashBytes rowA rowM rowS n) }

/-! ### Pseudo-operations -/

/-- R107: a SAMPLE run by five steps of the machine (its READ, three engine steps, its PUT) has on RB the effect of the
whole of PUT of the element made from the value read: that element in slot `head`, the indices as PUT moves them, every
byte outside the slot and every other register of RB as before. The whole next state is given; by default the element is
the data bytes in wire order. The steps it takes (log 17) and the latches kept (log 14) are the model's choice. -/
def Obligations.SampleStoresScanResult : Prop :=
  ∀ (s : State) (row : RegRow) (rest : List ProducerReq) (ps : List Port) (rx : List Byte) (v : Data) (e : Element),
    RbInv s.cfg s.rb → s.rb.initialized = true → s.rp.phase = .idle → s.env.samplePut = none →
    s.cfg.row s.cfg.regScanResult = some row →
    s.env.producer = .sample :: rest → s.env.sched = [.producer, .rp, .rp, .rp, .producer] ++ ps →
    rx = deviceBytes s.env (1 + row.width.bytes) → v = readValue rx row.width.bytes →
    e = elemOfValue s.cfg v row.width.bytes → e.length = s.rb.elementSize →
    (s.cfg.elemLayout = .wireOrder → e = rx.drop 1) ∧
    ∃ t u mem, Host.Core.run core 5 s = .next t ∧ exec (.put e) s = .next u ∧ t.rb = u.rb ∧
      t = { s with
        rb := { s.rb with
          head := (s.rb.head + 1) % s.rb.capacity
          tail := if (s.rb.head + 1) % s.rb.capacity = s.rb.tail then (s.rb.tail + 1) % s.rb.capacity else s.rb.tail
          mem := mem }
        rp := { s.rp with
          phase := .idle, cs := 1#1, op := .read, reg := s.cfg.regScanResult, client := .sample
          resStatus := .ok, resValue := v
          history := s.rp.history ++ [.cs 0#1, .xfer (readFrame s.cfg row) rx, .cs 1#1] }
        env := { afterBytes s.env (1 + row.width.bytes) with producer := rest, sched := ps, samplePut := none }
        responses := s.responses ++ [⟨.port .rp, .ok, .value v⟩, ⟨.port .producer, .ok, .none⟩] } ∧
      slotRead t.rb s.rb.head = .next e ∧
      (∀ a, a < s.rb.head * s.rb.elementSize ∨ s.rb.head * s.rb.elementSize + s.rb.elementSize ≤ a →
        readByte mem a = readByte s.rb.mem a)

/-- R144: a WRITE_CHECKED run by eight steps of the machine writes, releases chip-select, verifies, and returns `Ok` or
`UnsuccessfulRegisterWrite` by the comparison; a bad handle returns `InvalidPointer` with no bus event and leaves no VERIFY
to come. The whole next state is given. The steps it takes and its response (log 18) and the latches kept (log 14) are the
model's choice. -/
def Obligations.WriteCheckedComparesReadBack : Prop :=
  ∀ (s : State) (reg : Handle) (d : Data) (rest : List RpReq) (ps : List Port),
    s.rp.phase = .idle → s.env.checkVerify = none → s.env.rp = .writeChecked reg d :: rest →
    s.env.sched = [.rp, .rp, .rp, .rp, .rp, .rp, .rp, .rp] ++ ps →
    (s.cfg.row reg = none → ∃ t, step s = .next t ∧ t.env.checkVerify = none ∧
      t = { s with
        env := { s.env with rp := rest, sched := [.rp, .rp, .rp, .rp, .rp, .rp, .rp] ++ ps, checkVerify := none }
        responses := s.responses ++
          [⟨.port .rp, .invalidPointer, .none⟩, ⟨.writeChecked, .invalidPointer, .none⟩] }) ∧
    (∀ row rx v, s.cfg.row reg = some row →
      rx = deviceBytes (afterBytes s.env (1 + row.width.bytes)) (1 + row.width.bytes) →
      v = readValue rx row.width.bytes →
      ∃ t, Host.Core.run core 8 s = .next t ∧
        t = { s with
          rp := { s.rp with
            phase := .idle, cs := 1#1, op := .verify, reg := reg, data := d, client := .checkVerify
            resStatus := .ok, resValue := v
            history := s.rp.history ++
              [.cs 0#1, .xfer (writeFrame s.cfg row d) (deviceBytes s.env (1 + row.width.bytes)), .cs 1#1,
                .cs 0#1, .xfer (readFrame s.cfg row) rx, .cs 1#1] }
          env := { afterBytes s.env (1 + row.width.bytes + (1 + row.width.bytes)) with
            rp := rest, sched := ps, checkVerify := none }
          responses := s.responses ++
            [⟨.port .rp, .ok, .none⟩, ⟨.port .rp, .ok, .bit (decide (v = d))⟩,
              ⟨.writeChecked, if v = d then .ok else .unsuccessfulRegisterWrite, .none⟩] })
end

