-- ==== Sys2Proof/Laws/Index.lean ====
section
/-! SUPPORT. The index arithmetic of R108: under the invariant of R11 the mask is `mod capacity`, and no sum overflows. -/

namespace Sys2Proof.Machine

variable {c : Cfg} {rb : RbState}

/-- The test of R100 is "exact power of two". -/
theorem isPowerOfTwo_iff (n : Nat) : isPowerOfTwo n = true ↔ ∃ k, n = 2 ^ k := by
  rw [isPowerOfTwo, Bool.and_eq_true, decide_eq_true_eq, decide_eq_true_eq]
  exact Nat.ne_zero_and_sub_one_eq_zero_iff_isPowerOfTwo

theorem indexMask_two_pow {k : Nat} (h : k < c.capW) : indexMask c (2 ^ k) = 2 ^ k - 1 := by
  have h₁ : 2 ^ k < 2 ^ c.capW := Nat.pow_lt_pow_right (by decide) h
  have h₂ := Nat.two_pow_pos k
  rw [indexMask, show 2 ^ k + (2 ^ c.capW - 1) = 2 ^ k - 1 + 2 ^ c.capW by omega, Nat.add_mod_right,
    Nat.mod_eq_of_lt (by omega)]

/-- `wrap(i) = i mod capacity` (notation of 00_scope). -/
theorem wrapIndex_eq_mod (h : RbInv c rb) (hi : rb.initialized = true) (i : Nat) :
    wrapIndex c rb i = i % rb.capacity := by
  obtain ⟨k, hk, hc⟩ := h.pow hi
  rw [wrapIndex, hc, indexMask_two_pow hk, Nat.and_two_pow_sub_one_eq_mod]

theorem capacity_pos (h : RbInv c rb) (hi : rb.initialized = true) : 0 < rb.capacity :=
  Nat.lt_of_le_of_lt (Nat.zero_le _) (h.head hi)

theorem capacity_lt (h : RbInv c rb) (hi : rb.initialized = true) : rb.capacity < 2 ^ c.capW := by
  obtain ⟨k, hk, hc⟩ := h.pow hi
  rw [hc]
  exact Nat.pow_lt_pow_right (by decide) hk

/-- A sum of an index and at most `capacity` wraps at most once (R108). -/
theorem add_mod_capacity {a k n : Nat} (ha : a < n) (hk : k ≤ n) :
    (a + k) % n = if a + k < n then a + k else a + k - n := by
  split_ifs with h
  · exact Nat.mod_eq_of_lt h
  · rw [Nat.mod_eq_sub_mod (by omega), Nat.mod_eq_of_lt (by omega)]

theorem availCount_eq (h : RbInv c rb) (hi : rb.initialized = true) :
    availCount c rb = if rb.tail ≤ rb.head then rb.head - rb.tail else rb.head + rb.capacity - rb.tail := by
  have hh := h.head hi
  have ht := h.tail hi
  rw [availCount, wrapIndex_eq_mod h hi]
  split_ifs with hle
  · rw [show rb.head + rb.capacity - rb.tail = rb.head - rb.tail + rb.capacity by omega, Nat.add_mod_right,
      Nat.mod_eq_of_lt (by omega)]
  · exact Nat.mod_eq_of_lt (by omega)

/-- `0 <= avail <= capacity - 1` (R14). -/
theorem availCount_lt (h : RbInv c rb) (hi : rb.initialized = true) : availCount c rb < rb.capacity := by
  rw [availCount, wrapIndex_eq_mod h hi]
  exact Nat.mod_lt _ (capacity_pos h hi)

/-- `head` is `avail` places after `tail`. -/
theorem tail_add_avail (h : RbInv c rb) (hi : rb.initialized = true) :
    (rb.tail + availCount c rb) % rb.capacity = rb.head := by
  have hh := h.head hi
  have ht := h.tail hi
  have ha := availCount_lt h hi
  rw [add_mod_capacity ht ha.le, availCount_eq h hi]
  split_ifs <;> omega

theorem isFullFlag_eq (h : RbInv c rb) (hi : rb.initialized = true) :
    isFullFlag c rb = decide ((rb.head + 1) % rb.capacity = rb.tail) := by
  rw [isFullFlag, wrapIndex_eq_mod h hi]

/-- An uninitialized buffer is not full (R26). -/
theorem isFullFlag_off (h : RbInv c rb) (hi : rb.initialized = false) (hw : 1 ≤ c.capW) :
    isFullFlag c rb = false := by
  have h₁ : 2 ^ 1 ≤ 2 ^ c.capW := Nat.pow_le_pow_right (by decide) hw
  rw [h.off hi]
  simp only [isFullFlag, wrapIndex, indexMask, RbState.reset, decide_eq_false_iff_not, Nat.zero_add]
  rw [Nat.mod_eq_of_lt (by omega), Nat.and_two_pow_sub_one_eq_mod, Nat.mod_eq_of_lt (by omega)]
  decide

end Sys2Proof.Machine
end

