-- ==== Sys2Proof/Laws/Memory.lean ====
section
/-! SUPPORT. The laws of slot storage: read after write, writes elsewhere, the canonical form, and what `slotRead` and
`slotWrite` can do. -/

namespace Sys2Proof.Machine

variable {m : Memory} {a b : Nat} {v : Byte}

/-! ### One byte -/

@[simp] theorem readByte_nil (a : Nat) : readByte [] a = none := rfl

theorem readByte_cons (b : Nat) (u : Byte) (m : Memory) (a : Nat) :
    readByte ((b, u) :: m) a = if a = b then some u else readByte m a := rfl

theorem readByte_writeByte (m : Memory) (a : Nat) (v : Byte) (x : Nat) :
    readByte (writeByte m a v) x = if x = a then some v else readByte m x := by
  induction m with
  | nil => simp [writeByte, readByte]
  | cons c m ih =>
    obtain ⟨b, u⟩ := c
    simp only [writeByte]
    split_ifs with h₁ h₂ <;> simp only [readByte, ih] <;> split_ifs <;> first | rfl | omega

/-- The first address of a canonical memory lies below every later one. -/
theorem memory_wf_cons_iff (c : Host.Cell) (m : Memory) :
    Memory.wf (c :: m) = true ↔ (∀ d ∈ m.head?, c.1 < d.1) ∧ Memory.wf m = true := by
  cases m with
  | nil => simp [Memory.wf]
  | cons d m => simp [Memory.wf]

theorem head_writeByte (m : Memory) (a : Nat) (v : Byte) :
    ∃ d, (writeByte m a v).head? = some d ∧ (d.1 = a ∨ ∃ c ∈ m.head?, d.1 = c.1) := by
  cases m with
  | nil => exact ⟨(a, v), rfl, .inl rfl⟩
  | cons c m =>
    obtain ⟨b, u⟩ := c
    simp only [writeByte]
    split_ifs
    · exact ⟨_, rfl, .inl rfl⟩
    · exact ⟨_, rfl, .inl rfl⟩
    · exact ⟨_, rfl, .inr ⟨_, rfl, rfl⟩⟩

/-- Writing a byte keeps the canonical form. -/
theorem memory_wf_writeByte (h : Memory.wf m = true) (a : Nat) (v : Byte) : Memory.wf (writeByte m a v) = true := by
  induction m with
  | nil => rfl
  | cons c m ih =>
    obtain ⟨b, u⟩ := c
    have hm := (memory_wf_cons_iff (b, u) m).1 h
    simp only [writeByte]
    split_ifs with h₁ h₂
    · exact (memory_wf_cons_iff _ _).2 ⟨by simpa using h₁, h⟩
    · subst h₂
      exact (memory_wf_cons_iff _ _).2 hm
    · refine (memory_wf_cons_iff _ _).2 ⟨fun x hx => ?_, ih hm.2⟩
      obtain ⟨d, hd, hda⟩ := head_writeByte m a v
      obtain rfl : d = x := by rw [hd] at hx; exact Option.some.inj hx
      rcases hda with h | ⟨c, hc, h⟩
      · simp only; omega
      · have := hm.1 c hc
        simp only at this ⊢; omega

/-! ### A run of bytes -/

theorem readByte_writeBytes_other (bs : List Byte) (m : Memory) (a x : Nat) (h : x < a ∨ a + bs.length ≤ x) :
    readByte (writeBytes m a bs) x = readByte m x := by
  induction bs generalizing m a with
  | nil => rfl
  | cons b bs ih =>
    simp only [List.length_cons] at h
    rw [writeBytes, ih _ _ (by omega), readByte_writeByte, if_neg (by omega)]

theorem readByte_writeBytes_inside (bs : List Byte) (m : Memory) (a j : Nat) (h : j < bs.length) :
    readByte (writeBytes m a bs) (a + j) = some bs[j] := by
  induction bs generalizing m a j with
  | nil => simp at h
  | cons b bs ih =>
    rw [writeBytes]
    cases j with
    | zero => rw [readByte_writeBytes_other _ _ _ _ (by omega), readByte_writeByte]; simp
    | succ j =>
      have := ih (writeByte m a b) (a + 1) j (by simpa using h)
      rw [show a + (j + 1) = a + 1 + j by omega, this]
      simp

/-- Writing bytes keeps the canonical form. -/
theorem memory_wf_writeBytes (bs : List Byte) (h : Memory.wf m = true) (a : Nat) : Memory.wf (writeBytes m a bs) = true := by
  induction bs generalizing m a with
  | nil => exact h
  | cons b bs ih => exact ih (memory_wf_writeByte h a b) (a + 1)

/-- A run of bytes reads as `bs` exactly when each of its bytes does. -/
theorem readBytes_eq_some (m : Memory) (a n : Nat) (bs : List Byte) :
    readBytes m a n = some bs ↔ bs.length = n ∧ ∀ j (h : j < bs.length), readByte m (a + j) = some bs[j] := by
  induction n generalizing a bs with
  | zero =>
    simp only [readBytes, Option.some.injEq]
    constructor
    · rintro rfl; simp
    · rintro ⟨h, -⟩; exact (List.length_eq_zero_iff.1 h).symm
  | succ n ih =>
    constructor
    · intro h
      simp only [readBytes] at h
      split at h
      · rename_i b cs hb hcs
        obtain rfl := Option.some.inj h
        obtain ⟨hl, hr⟩ := (ih _ _).1 hcs
        refine ⟨by simp [hl], fun j hj => ?_⟩
        cases j with
        | zero => simpa using hb
        | succ j =>
          have := hr j (by simpa using hj)
          rw [show a + (j + 1) = a + 1 + j by omega, this]; simp
      · simp at h
    · rintro ⟨hl, hr⟩
      cases bs with
      | nil => simp at hl
      | cons b bs =>
        have hb := hr 0 (by simp)
        have hcs : readBytes m (a + 1) n = some bs := by
          refine (ih _ _).2 ⟨by simpa using hl, fun j hj => ?_⟩
          have := hr (j + 1) (by simpa using hj)
          rw [show a + 1 + j = a + (j + 1) by omega, this]; simp
        simp only [Nat.add_zero, List.getElem_cons_zero] at hb
        simp only [readBytes, hb, hcs]

theorem readBytes_writeBytes_same (bs : List Byte) (m : Memory) (a : Nat) :
    readBytes (writeBytes m a bs) a bs.length = some bs :=
  (readBytes_eq_some _ _ _ _).2 ⟨rfl, fun j h => readByte_writeBytes_inside bs m a j h⟩

/-- Bytes read the same from two memories that agree on them. -/
theorem readBytes_congr {m' : Memory} (a n : Nat) (h : ∀ j, j < n → readByte m (a + j) = readByte m' (a + j)) :
    readBytes m a n = readBytes m' a n := by
  induction n generalizing a with
  | zero => rfl
  | succ n ih =>
    have h0 := h 0 (by omega)
    have hs := ih (a + 1) fun j hj => by
      have := h (j + 1) (by omega)
      rwa [show a + (j + 1) = a + 1 + j by omega] at this
    simp only [Nat.add_zero] at h0
    simp only [readBytes, h0, hs]

/-! ### Slots -/

variable {rb : RbState} {i : Nat} {e : Element}

/-- `slotRead` answers an element exactly when the slot exists and each of its bytes is the element's. -/
theorem slotRead_eq_next (rb : RbState) (i : Nat) (e : Element) :
    slotRead rb i = .next e ↔ (rb.initialized = true ∧ i < rb.capacity) ∧ e.length = rb.elementSize ∧
      ∀ j (h : j < e.length), readByte rb.mem (i * rb.elementSize + j) = some e[j] := by
  rw [← readBytes_eq_some]
  simp only [slotRead, slotExists, Bool.and_eq_true, decide_eq_true_eq]
  split_ifs with h
  · cases hr : readBytes rb.mem (i * rb.elementSize) rb.elementSize <;> simp [h]
  · simp [h]

/-- The one fault of a slot of the storage is `Unwritten`. -/
theorem slotRead_cases (rb : RbState) (i : Nat) :
    (∃ e, slotRead rb i = .next e) ∨
      (slotRead rb i = .fault .unwrittenSlot ∧ rb.initialized = true ∧ i < rb.capacity) ∨
      (slotRead rb i = .fault .slotOutOfRange ∧ ¬(rb.initialized = true ∧ i < rb.capacity)) := by
  simp only [slotRead, slotExists, Bool.and_eq_true, decide_eq_true_eq]
  split_ifs with h
  · cases readBytes rb.mem (i * rb.elementSize) rb.elementSize with
    | none => exact .inr (.inl ⟨rfl, h⟩)
    | some e => exact .inl ⟨e, rfl⟩
  · exact .inr (.inr ⟨rfl, h⟩)

/-- A slot read depends on nothing but the slot: neither `head` nor `tail`. -/
theorem slotRead_congr {rb' : RbState} (i : Nat) (hi : rb'.initialized = rb.initialized)
    (hc : rb'.capacity = rb.capacity) (he : rb'.elementSize = rb.elementSize)
    (hm : ∀ j, j < rb.elementSize →
      readByte rb'.mem (i * rb.elementSize + j) = readByte rb.mem (i * rb.elementSize + j)) :
    slotRead rb' i = slotRead rb i := by
  unfold slotRead slotExists
  rw [hi, hc, he, readBytes_congr _ _ hm]

/-- What `slotWrite` can do: nothing but write the element's bytes into its slot. -/
theorem slotWrite_eq_next {rb' : RbState} (rb : RbState) (i : Nat) (e : Element) :
    slotWrite rb i e = .next rb' ↔ (rb.initialized = true ∧ i < rb.capacity) ∧ e.length = rb.elementSize ∧
      rb' = { rb with mem := writeBytes rb.mem (i * rb.elementSize) e } := by
  simp only [slotWrite, slotExists, Bool.and_eq_true, decide_eq_true_eq]
  split_ifs with h₁ h₂
  · simp [h₁, h₂, eq_comm]
  · simp [h₂]
  · simp [h₁]

/-- The slot written reads as the element; every other slot reads as before. -/
theorem slotRead_written (hx : rb.initialized = true ∧ i < rb.capacity) (hl : e.length = rb.elementSize) (k : Nat) :
    slotRead { rb with mem := writeBytes rb.mem (i * rb.elementSize) e } k =
      if k = i then .next e else slotRead rb k := by
  split_ifs with h
  · subst h
    rw [slotRead_eq_next]
    exact ⟨hx, hl, fun j hj => readByte_writeBytes_inside e _ _ j hj⟩
  · refine slotRead_congr (rb := rb) k rfl rfl rfl fun j hj => readByte_writeBytes_other _ _ _ _ ?_
    rw [hl]
    rcases Nat.lt_or_gt_of_ne h with h | h
    · have := Nat.mul_le_mul_right rb.elementSize (Nat.succ_le_of_lt h)
      rw [Nat.succ_mul] at this; omega
    · have := Nat.mul_le_mul_right rb.elementSize (Nat.succ_le_of_lt h)
      rw [Nat.succ_mul] at this; omega

end Sys2Proof.Machine
end

