-- ==== Sys2Proof/Laws/State.lean ====
section
/-! SUPPORT. One lemma per field per named update of the state, so that no proof unfolds a record update. -/

namespace Sys2Proof.Machine

variable (s : State)

/-! ### `State.respond` -/

@[simp] theorem respond_cfg (r : Receiver) (st : Status) (res : Result) : (s.respond r st res).cfg = s.cfg := rfl
@[simp] theorem respond_rb (r : Receiver) (st : Status) (res : Result) : (s.respond r st res).rb = s.rb := rfl
@[simp] theorem respond_env (r : Receiver) (st : Status) (res : Result) : (s.respond r st res).env = s.env := rfl
@[simp] theorem respond_responses (r : Receiver) (st : Status) (res : Result) : (s.respond r st res).responses = s.responses ++ [⟨r, st, res⟩] := rfl
@[simp] theorem respond_rp (r : Receiver) (st : Status) (res : Result) : (s.respond r st res).rp = s.rp := rfl

/-! ### `State.withRb` -/

@[simp] theorem withRb_cfg (rb : RbState) : (s.withRb rb).cfg = s.cfg := rfl
@[simp] theorem withRb_rb (rb : RbState) : (s.withRb rb).rb = rb := rfl
@[simp] theorem withRb_env (rb : RbState) : (s.withRb rb).env = s.env := rfl
@[simp] theorem withRb_responses (rb : RbState) : (s.withRb rb).responses = s.responses := rfl
@[simp] theorem withRb_rp (rb : RbState) : (s.withRb rb).rp = s.rp := rfl

/-! ### `State.busCs` -/

@[simp] theorem busCs_cfg (l : BitVec 1) : (s.busCs l).cfg = s.cfg := rfl
@[simp] theorem busCs_rb (l : BitVec 1) : (s.busCs l).rb = s.rb := rfl
@[simp] theorem busCs_env (l : BitVec 1) : (s.busCs l).env = s.env := rfl
@[simp] theorem busCs_responses (l : BitVec 1) : (s.busCs l).responses = s.responses := rfl
@[simp] theorem busCs_phase (l : BitVec 1) : (s.busCs l).rp.phase = s.rp.phase := rfl
@[simp] theorem busCs_cs (l : BitVec 1) : (s.busCs l).rp.cs = l := rfl
@[simp] theorem busCs_pollCnt (l : BitVec 1) : (s.busCs l).rp.pollCnt = s.rp.pollCnt := rfl
@[simp] theorem busCs_op (l : BitVec 1) : (s.busCs l).rp.op = s.rp.op := rfl
@[simp] theorem busCs_reg (l : BitVec 1) : (s.busCs l).rp.reg = s.rp.reg := rfl
@[simp] theorem busCs_data (l : BitVec 1) : (s.busCs l).rp.data = s.rp.data := rfl
@[simp] theorem busCs_client (l : BitVec 1) : (s.busCs l).rp.client = s.rp.client := rfl
@[simp] theorem busCs_resStatus (l : BitVec 1) : (s.busCs l).rp.resStatus = s.rp.resStatus := rfl
@[simp] theorem busCs_resValue (l : BitVec 1) : (s.busCs l).rp.resValue = s.rp.resValue := rfl
@[simp] theorem busCs_history (l : BitVec 1) : (s.busCs l).rp.history = s.rp.history ++ [.cs l] := rfl

/-! ### `State.busXfer` -/

@[simp] theorem busXfer_cfg (tx : List Byte) : (s.busXfer tx).cfg = s.cfg := rfl
@[simp] theorem busXfer_rb (tx : List Byte) : (s.busXfer tx).rb = s.rb := rfl
@[simp] theorem busXfer_env (tx : List Byte) : (s.busXfer tx).env = afterBytes s.env tx.length := rfl
@[simp] theorem busXfer_responses (tx : List Byte) : (s.busXfer tx).responses = s.responses := rfl
@[simp] theorem busXfer_phase (tx : List Byte) : (s.busXfer tx).rp.phase = s.rp.phase := rfl
@[simp] theorem busXfer_cs (tx : List Byte) : (s.busXfer tx).rp.cs = s.rp.cs := rfl
@[simp] theorem busXfer_pollCnt (tx : List Byte) : (s.busXfer tx).rp.pollCnt = s.rp.pollCnt := rfl
@[simp] theorem busXfer_op (tx : List Byte) : (s.busXfer tx).rp.op = s.rp.op := rfl
@[simp] theorem busXfer_reg (tx : List Byte) : (s.busXfer tx).rp.reg = s.rp.reg := rfl
@[simp] theorem busXfer_data (tx : List Byte) : (s.busXfer tx).rp.data = s.rp.data := rfl
@[simp] theorem busXfer_client (tx : List Byte) : (s.busXfer tx).rp.client = s.rp.client := rfl
@[simp] theorem busXfer_resStatus (tx : List Byte) : (s.busXfer tx).rp.resStatus = s.rp.resStatus := rfl
@[simp] theorem busXfer_resValue (tx : List Byte) : (s.busXfer tx).rp.resValue = s.rp.resValue := rfl
@[simp] theorem busXfer_history (tx : List Byte) : (s.busXfer tx).rp.history = s.rp.history ++ [.xfer tx (deviceBytes s.env tx.length)] := rfl

/-! ### `State.setPhase` -/

@[simp] theorem setPhase_cfg (p : Phase) : (s.setPhase p).cfg = s.cfg := rfl
@[simp] theorem setPhase_rb (p : Phase) : (s.setPhase p).rb = s.rb := rfl
@[simp] theorem setPhase_env (p : Phase) : (s.setPhase p).env = s.env := rfl
@[simp] theorem setPhase_responses (p : Phase) : (s.setPhase p).responses = s.responses := rfl
@[simp] theorem setPhase_phase (p : Phase) : (s.setPhase p).rp.phase = p := rfl
@[simp] theorem setPhase_cs (p : Phase) : (s.setPhase p).rp.cs = s.rp.cs := rfl
@[simp] theorem setPhase_pollCnt (p : Phase) : (s.setPhase p).rp.pollCnt = s.rp.pollCnt := rfl
@[simp] theorem setPhase_op (p : Phase) : (s.setPhase p).rp.op = s.rp.op := rfl
@[simp] theorem setPhase_reg (p : Phase) : (s.setPhase p).rp.reg = s.rp.reg := rfl
@[simp] theorem setPhase_data (p : Phase) : (s.setPhase p).rp.data = s.rp.data := rfl
@[simp] theorem setPhase_client (p : Phase) : (s.setPhase p).rp.client = s.rp.client := rfl
@[simp] theorem setPhase_resStatus (p : Phase) : (s.setPhase p).rp.resStatus = s.rp.resStatus := rfl
@[simp] theorem setPhase_resValue (p : Phase) : (s.setPhase p).rp.resValue = s.rp.resValue := rfl
@[simp] theorem setPhase_history (p : Phase) : (s.setPhase p).rp.history = s.rp.history := rfl

/-! ### `State.setPollCnt` -/

@[simp] theorem setPollCnt_cfg (n : Nat) : (s.setPollCnt n).cfg = s.cfg := rfl
@[simp] theorem setPollCnt_rb (n : Nat) : (s.setPollCnt n).rb = s.rb := rfl
@[simp] theorem setPollCnt_env (n : Nat) : (s.setPollCnt n).env = s.env := rfl
@[simp] theorem setPollCnt_responses (n : Nat) : (s.setPollCnt n).responses = s.responses := rfl
@[simp] theorem setPollCnt_phase (n : Nat) : (s.setPollCnt n).rp.phase = s.rp.phase := rfl
@[simp] theorem setPollCnt_cs (n : Nat) : (s.setPollCnt n).rp.cs = s.rp.cs := rfl
@[simp] theorem setPollCnt_pollCnt (n : Nat) : (s.setPollCnt n).rp.pollCnt = n := rfl
@[simp] theorem setPollCnt_op (n : Nat) : (s.setPollCnt n).rp.op = s.rp.op := rfl
@[simp] theorem setPollCnt_reg (n : Nat) : (s.setPollCnt n).rp.reg = s.rp.reg := rfl
@[simp] theorem setPollCnt_data (n : Nat) : (s.setPollCnt n).rp.data = s.rp.data := rfl
@[simp] theorem setPollCnt_client (n : Nat) : (s.setPollCnt n).rp.client = s.rp.client := rfl
@[simp] theorem setPollCnt_resStatus (n : Nat) : (s.setPollCnt n).rp.resStatus = s.rp.resStatus := rfl
@[simp] theorem setPollCnt_resValue (n : Nat) : (s.setPollCnt n).rp.resValue = s.rp.resValue := rfl
@[simp] theorem setPollCnt_history (n : Nat) : (s.setPollCnt n).rp.history = s.rp.history := rfl

/-! ### `State.latch` -/

@[simp] theorem latch_cfg (st : Status) (v : Data) : (s.latch st v).cfg = s.cfg := rfl
@[simp] theorem latch_rb (st : Status) (v : Data) : (s.latch st v).rb = s.rb := rfl
@[simp] theorem latch_env (st : Status) (v : Data) : (s.latch st v).env = s.env := rfl
@[simp] theorem latch_responses (st : Status) (v : Data) : (s.latch st v).responses = s.responses := rfl
@[simp] theorem latch_phase (st : Status) (v : Data) : (s.latch st v).rp.phase = s.rp.phase := rfl
@[simp] theorem latch_cs (st : Status) (v : Data) : (s.latch st v).rp.cs = s.rp.cs := rfl
@[simp] theorem latch_pollCnt (st : Status) (v : Data) : (s.latch st v).rp.pollCnt = s.rp.pollCnt := rfl
@[simp] theorem latch_op (st : Status) (v : Data) : (s.latch st v).rp.op = s.rp.op := rfl
@[simp] theorem latch_reg (st : Status) (v : Data) : (s.latch st v).rp.reg = s.rp.reg := rfl
@[simp] theorem latch_data (st : Status) (v : Data) : (s.latch st v).rp.data = s.rp.data := rfl
@[simp] theorem latch_client (st : Status) (v : Data) : (s.latch st v).rp.client = s.rp.client := rfl
@[simp] theorem latch_resStatus (st : Status) (v : Data) : (s.latch st v).rp.resStatus = st := rfl
@[simp] theorem latch_resValue (st : Status) (v : Data) : (s.latch st v).rp.resValue = v := rfl
@[simp] theorem latch_history (st : Status) (v : Data) : (s.latch st v).rp.history = s.rp.history := rfl

/-! ### `State.loadOp` -/

@[simp] theorem loadOp_cfg (c : Client) (op : RpOp) (reg : Handle) (d : Data) : (s.loadOp c op reg d).cfg = s.cfg := rfl
@[simp] theorem loadOp_rb (c : Client) (op : RpOp) (reg : Handle) (d : Data) : (s.loadOp c op reg d).rb = s.rb := rfl
@[simp] theorem loadOp_env (c : Client) (op : RpOp) (reg : Handle) (d : Data) : (s.loadOp c op reg d).env = s.env := rfl
@[simp] theorem loadOp_responses (c : Client) (op : RpOp) (reg : Handle) (d : Data) : (s.loadOp c op reg d).responses = s.responses := rfl
@[simp] theorem loadOp_phase (c : Client) (op : RpOp) (reg : Handle) (d : Data) : (s.loadOp c op reg d).rp.phase = s.rp.phase := rfl
@[simp] theorem loadOp_cs (c : Client) (op : RpOp) (reg : Handle) (d : Data) : (s.loadOp c op reg d).rp.cs = s.rp.cs := rfl
@[simp] theorem loadOp_pollCnt (c : Client) (op : RpOp) (reg : Handle) (d : Data) : (s.loadOp c op reg d).rp.pollCnt = s.rp.pollCnt := rfl
@[simp] theorem loadOp_op (c : Client) (op : RpOp) (reg : Handle) (d : Data) : (s.loadOp c op reg d).rp.op = op := rfl
@[simp] theorem loadOp_reg (c : Client) (op : RpOp) (reg : Handle) (d : Data) : (s.loadOp c op reg d).rp.reg = reg := rfl
@[simp] theorem loadOp_data (c : Client) (op : RpOp) (reg : Handle) (d : Data) : (s.loadOp c op reg d).rp.data = d := rfl
@[simp] theorem loadOp_client (c : Client) (op : RpOp) (reg : Handle) (d : Data) : (s.loadOp c op reg d).rp.client = c := rfl
@[simp] theorem loadOp_resStatus (c : Client) (op : RpOp) (reg : Handle) (d : Data) : (s.loadOp c op reg d).rp.resStatus = s.rp.resStatus := rfl
@[simp] theorem loadOp_resValue (c : Client) (op : RpOp) (reg : Handle) (d : Data) : (s.loadOp c op reg d).rp.resValue = s.rp.resValue := rfl
@[simp] theorem loadOp_history (c : Client) (op : RpOp) (reg : Handle) (d : Data) : (s.loadOp c op reg d).rp.history = s.rp.history := rfl

end Sys2Proof.Machine
end

