-- ==== Sys2Proof/Laws/RingBuffer.lean ====
section
/-! SUPPORT. What sequencing, a contiguous copy and each RB operation can do: one lemma each, which says all of it. -/

namespace Sys2Proof.Machine

/-! ### Sequencing -/

variable {α β : Type}

@[simp] theorem andThen_next (a : α) (f : α → Host.Outcome β Fault Refusal) : andThen (.next a) f = f a := rfl

@[simp] theorem andThen_fault (r : Fault) (f : α → Host.Outcome β Fault Refusal) : andThen (.fault r) f = .fault r := rfl

@[simp] theorem andThen_refused (r : Refusal) (f : α → Host.Outcome β Fault Refusal) :
    andThen (.refused r) f = .refused r := rfl

theorem andThen_eq_next {o : Host.Outcome α Fault Refusal} {f : α → Host.Outcome β Fault Refusal} {b : β} :
    andThen o f = .next b ↔ ∃ a, o = .next a ∧ f a = .next b := by
  cases o <;> simp

theorem andThen_eq_fault {o : Host.Outcome α Fault Refusal} {f : α → Host.Outcome β Fault Refusal} {r : Fault} :
    andThen o f = .fault r ↔ o = .fault r ∨ ∃ a, o = .next a ∧ f a = .fault r := by
  cases o <;> simp

theorem andThen_eq_refused {o : Host.Outcome α Fault Refusal} {f : α → Host.Outcome β Fault Refusal} {r : Refusal} :
    andThen o f = .refused r ↔ o = .refused r ∨ ∃ a, o = .next a ∧ f a = .refused r := by
  cases o <;> simp

/-! ### Contiguous copies -/

/-- `slotRead` is never refused. -/
theorem slotRead_ne_refused (rb : RbState) (i : Nat) (r : Refusal) : slotRead rb i ≠ .refused r := by
  rcases slotRead_cases rb i with ⟨e, h⟩ | ⟨h, -⟩ | ⟨h, -⟩ <;> simp [h]

/-- One contiguous copy reads its slots one by one. -/
theorem copyRun_eq_next (rb : RbState) (t n : Nat) (es : List Element) :
    copyRun rb t n = .next es ↔
      es.length = n ∧ ∀ j (h : j < es.length), slotRead rb (t + j) = .next es[j] := by
  induction n generalizing t es with
  | zero =>
    simp only [copyRun, Host.Outcome.next.injEq]
    constructor
    · rintro rfl; simp
    · rintro ⟨h, -⟩; exact (List.length_eq_zero_iff.1 h).symm
  | succ n ih =>
    simp only [copyRun, andThen_eq_next, ih, Host.Outcome.next.injEq]
    constructor
    · rintro ⟨e, he, es', ⟨hl, hr⟩, rfl⟩
      refine ⟨by simp [hl], fun j hj => ?_⟩
      cases j with
      | zero => simpa using he
      | succ j =>
        have := hr j (by simpa using hj)
        rw [show t + (j + 1) = t + 1 + j by omega, this]; simp
    · rintro ⟨hl, hr⟩
      cases es with
      | nil => simp at hl
      | cons e es =>
        refine ⟨e, hr 0 (by simp), es, ⟨by simpa using hl, fun j hj => ?_⟩, rfl⟩
        have := hr (j + 1) (by simpa using hj)
        rw [show t + 1 + j = t + (j + 1) by omega, this]; simp

/-- A contiguous copy faults only at a slot of its own, with that slot's fault. -/
theorem copyRun_eq_fault {rb : RbState} {t n : Nat} {r : Fault} (h : copyRun rb t n = .fault r) :
    ∃ j, j < n ∧ slotRead rb (t + j) = .fault r := by
  induction n generalizing t with
  | zero => simp [copyRun] at h
  | succ n ih =>
    simp only [copyRun, andThen_eq_fault] at h
    rcases h with h | ⟨e, -, h | ⟨es, -, h⟩⟩
    · exact ⟨0, by omega, h⟩
    · obtain ⟨j, hj, hr⟩ := ih h
      exact ⟨j + 1, by omega, by rwa [show t + (j + 1) = t + 1 + j by omega]⟩
    · simp at h

theorem copyRun_ne_refused (rb : RbState) (t n : Nat) (r : Refusal) : copyRun rb t n ≠ .refused r := by
  induction n generalizing t with
  | zero => simp [copyRun]
  | succ n ih =>
    simp only [copyRun, ne_eq, andThen_eq_refused, not_or, not_exists, not_and]
    exact ⟨slotRead_ne_refused _ _ _, fun e _ => ⟨ih _, fun es _ => by simp⟩⟩

theorem runRead_ne_refused (rb : RbState) (t k : Nat) (r : Refusal) : runRead rb t k ≠ .refused r := by
  simp only [runRead, ne_eq, andThen_eq_refused, not_or, not_exists, not_and]
  exact ⟨copyRun_ne_refused _ _ _ _, fun _ _ => ⟨copyRun_ne_refused _ _ _ _, fun _ _ => by simp⟩⟩

/-! ### RB after an update -/

variable (c : Cfg) (rb : RbState)

@[simp] theorem advanceHead_initialized : (advanceHead c rb).initialized = rb.initialized := rfl
@[simp] theorem advanceHead_capacity : (advanceHead c rb).capacity = rb.capacity := rfl
@[simp] theorem advanceHead_elementSize : (advanceHead c rb).elementSize = rb.elementSize := rfl
@[simp] theorem advanceHead_mem : (advanceHead c rb).mem = rb.mem := rfl
@[simp] theorem advanceTail_initialized (k : Nat) : (advanceTail c rb k).initialized = rb.initialized := rfl
@[simp] theorem advanceTail_capacity (k : Nat) : (advanceTail c rb k).capacity = rb.capacity := rfl
@[simp] theorem advanceTail_elementSize (k : Nat) : (advanceTail c rb k).elementSize = rb.elementSize := rfl
@[simp] theorem advanceTail_head (k : Nat) : (advanceTail c rb k).head = rb.head := rfl
@[simp] theorem advanceTail_mem (k : Nat) : (advanceTail c rb k).mem = rb.mem := rfl

/-- Moving the indices changes no slot. -/
@[simp] theorem slotRead_advanceHead (i : Nat) : slotRead (advanceHead c rb) i = slotRead rb i := rfl

@[simp] theorem slotRead_advanceTail (k i : Nat) : slotRead (advanceTail c rb k) i = slotRead rb i := rfl

/-! ### What each operation can do -/

variable {s t : State}

/-- INIT answers a next state in one of five ways, four of them with nothing changed but the response. -/
theorem execInit_next {capacity elementSize : Nat} (h : execInit capacity elementSize s = .next t) :
    (capacity < 2 ^ s.cfg.capW ∧ elementSize < 2 ^ s.cfg.eszW) ∧
    ((s.rb.initialized = true ∧ t = s.respond (.port .consumer) .invalidBufferState .none) ∨
      (s.rb.initialized = false ∧ (isPowerOfTwo capacity = false ∨ elementSize = 0) ∧
        t = s.respond (.port .consumer) .invalidSize .none) ∨
      (s.rb.initialized = false ∧ isPowerOfTwo capacity = true ∧ elementSize ≠ 0 ∧
        exceedsStorage s.cfg capacity elementSize = true ∧ t = s.respond (.port .consumer) .noMemory .none) ∨
      (s.rb.initialized = false ∧ isPowerOfTwo capacity = true ∧ elementSize ≠ 0 ∧
        exceedsStorage s.cfg capacity elementSize = false ∧
        t = (s.withRb (freshBuffer capacity elementSize)).respond (.port .consumer) .ok .none)) := by
  simp only [execInit] at h
  split_ifs at h with h₁ h₂ h₃ h₄ h₅ <;> obtain rfl := Host.Outcome.next.inj h <;>
    exact ⟨by omega, by simp_all⟩

/-- PUT answers a next state in two ways: uninitialized, or stored. -/
theorem execPut_next {e : Element} (h : execPut e s = .next t) :
    (s.rb.initialized = false ∧ t = s.respond (.port .producer) .notInitialized .none) ∨
      (s.rb.initialized = true ∧ s.rb.head < s.rb.capacity ∧ e.length = s.rb.elementSize ∧
        t = (s.withRb (advanceHead s.cfg { s.rb with
          mem := writeBytes s.rb.mem (s.rb.head * s.rb.elementSize) e })).respond (.port .producer) .ok .none) := by
  simp only [execPut] at h
  split_ifs at h with hi
  · obtain ⟨rb', hw, ht⟩ := andThen_eq_next.1 h
    obtain ⟨⟨-, hh⟩, hl, rfl⟩ := (slotWrite_eq_next _ _ _).1 hw
    exact .inr ⟨hi, hh, hl, (Host.Outcome.next.inj ht).symm⟩
  · exact .inl ⟨by simpa using hi, (Host.Outcome.next.inj h).symm⟩

/-- GET answers a next state in three ways: uninitialized, empty, or an element returned. -/
theorem execGet_next (h : execGet s = .next t) :
    (s.rb.initialized = false ∧ t = s.respond (.port .consumer) .notInitialized .none) ∨
      (s.rb.initialized = true ∧ s.rb.head = s.rb.tail ∧ t = s.respond (.port .consumer) .getOnEmpty .none) ∨
      (s.rb.initialized = true ∧ s.rb.head ≠ s.rb.tail ∧ ∃ e, slotRead s.rb s.rb.tail = .next e ∧
        t = (s.withRb (advanceTail s.cfg s.rb 1)).respond (.port .consumer) .ok (.element e)) := by
  simp only [execGet, isEmptyFlag, decide_eq_true_eq] at h
  split_ifs at h with hi he
  · exact .inr (.inl ⟨hi, he, (Host.Outcome.next.inj h).symm⟩)
  · obtain ⟨e, hr, ht⟩ := andThen_eq_next.1 h
    exact .inr (.inr ⟨hi, he, e, hr, (Host.Outcome.next.inj ht).symm⟩)
  · exact .inl ⟨by simpa using hi, (Host.Outcome.next.inj h).symm⟩

/-- GETMANY answers a next state in three ways: uninitialized, `count` 0, or a run returned. -/
theorem execGetMany_next {n : Nat} (h : execGetMany n s = .next t) :
    n < 2 ^ s.cfg.capW ∧
    ((s.rb.initialized = false ∧ t = s.respond (.port .consumer) .notInitialized (.many 0 [])) ∨
      (s.rb.initialized = true ∧ n = 0 ∧ t = s.respond (.port .consumer) .ok (.many 0 [])) ∨
      (s.rb.initialized = true ∧ n ≠ 0 ∧ ∃ es, runRead s.rb s.rb.tail (getManyCount s n) = .next es ∧
        t = (s.withRb (advanceTail s.cfg s.rb (getManyCount s n))).respond (.port .consumer) .ok
          (.many (getManyCount s n) es))) := by
  simp only [execGetMany] at h
  split_ifs at h with hw hi hn
  · exact ⟨by omega, .inr (.inl ⟨hi, hn, (Host.Outcome.next.inj h).symm⟩)⟩
  · obtain ⟨es, hr, ht⟩ := andThen_eq_next.1 h
    exact ⟨by omega, .inr (.inr ⟨hi, hn, es, hr, (Host.Outcome.next.inj ht).symm⟩)⟩
  · exact ⟨by omega, .inl ⟨by simpa using hi, (Host.Outcome.next.inj h).symm⟩⟩

end Sys2Proof.Machine
end

