-- ==== Sys2Proof/Laws/Bus.lean ====
section
/-! SUPPORT. The device's answers, the frames, what accepting an operation and what each phase of the engine can do. -/

namespace Sys2Proof.Machine

/-! ### The device's answers -/

@[simp] theorem deviceBytes_length (env : EnvState) (n : Nat) : (deviceBytes env n).length = n := by
  simp only [deviceBytes, List.length_append, List.length_take, List.length_map, List.length_range]
  omega

@[simp] theorem afterBytes_zero (env : EnvState) : afterBytes env 0 = env := by
  simp [afterBytes]

/-- Answering `m` bytes and then `n` is answering `m + n`. -/
theorem afterBytes_add (env : EnvState) (m n : Nat) :
    afterBytes (afterBytes env m) n = afterBytes env (m + n) := by
  simp only [afterBytes, List.drop_drop, List.length_drop, EnvState.mk.injEq, true_and, and_true]
  omega

/-- When the script is long enough the answers are the script's, and no free value is taken. -/
theorem deviceBytes_of_le {env : EnvState} {n : Nat} (h : n ≤ env.answers.length) :
    deviceBytes env n = env.answers.take n := by
  rw [deviceBytes, Nat.sub_eq_zero_of_le h]
  simp

@[simp] theorem afterBytes_samplePut (env : EnvState) (n : Nat) : (afterBytes env n).samplePut = env.samplePut := rfl
@[simp] theorem afterBytes_checkVerify (env : EnvState) (n : Nat) :
    (afterBytes env n).checkVerify = env.checkVerify := rfl
@[simp] theorem afterBytes_producer (env : EnvState) (n : Nat) : (afterBytes env n).producer = env.producer := rfl
@[simp] theorem afterBytes_consumer (env : EnvState) (n : Nat) : (afterBytes env n).consumer = env.consumer := rfl
@[simp] theorem afterBytes_rp (env : EnvState) (n : Nat) : (afterBytes env n).rp = env.rp := rfl
@[simp] theorem afterBytes_sched (env : EnvState) (n : Nat) : (afterBytes env n).sched = env.sched := rfl

/-! ### Frames (R73 to R77) -/

@[simp] theorem bigEndianBytes_length (w : Nat) (d : Data) : (bigEndianBytes w d).length = w := by
  induction w with
  | zero => rfl
  | succ w ih => simp [bigEndianBytes, ih]

/-- Byte `i` of a value sent most significant byte first (R74). -/
theorem bigEndianBytes_getElem (w : Nat) (d : Data) (i : Nat) (h : i < (bigEndianBytes w d).length) :
    (bigEndianBytes w d)[i] = (d >>> (8 * (w - 1 - i))).setWidth 8 := by
  induction w generalizing i with
  | zero => simp [bigEndianBytes] at h
  | succ w ih =>
    cases i with
    | zero => simp [bigEndianBytes]
    | succ i =>
      simp only [bigEndianBytes, List.getElem_cons_succ]
      rw [ih i (by simpa [bigEndianBytes] using h), show w + 1 - 1 - (i + 1) = w - 1 - i by omega]

@[simp] theorem writeFrame_length (c : Cfg) (row : RegRow) (d : Data) :
    (writeFrame c row d).length = 1 + row.width.bytes := by
  simp [writeFrame]; omega

@[simp] theorem readFrame_length (c : Cfg) (row : RegRow) : (readFrame c row).length = 1 + row.width.bytes := by
  simp [readFrame]; omega

@[simp] theorem writeFrame_ne_nil (c : Cfg) (row : RegRow) (d : Data) : writeFrame c row d ≠ [] := by simp [writeFrame]

@[simp] theorem readFrame_ne_nil (c : Cfg) (row : RegRow) : readFrame c row ≠ [] := by simp [readFrame]

/-! ### Waking a pseudo-operation -/

variable (s : State) (cl : Client) (st : Status) (res : Result)

@[simp] theorem wake_cfg : (s.wake cl st res).cfg = s.cfg := by
  cases cl <;> simp only [State.wake] <;> (try split) <;> rfl

@[simp] theorem wake_rb : (s.wake cl st res).rb = s.rb := by
  cases cl <;> simp only [State.wake] <;> (try split) <;> rfl

@[simp] theorem wake_rp : (s.wake cl st res).rp = s.rp := by
  cases cl <;> simp only [State.wake] <;> (try split) <;> rfl

@[simp] theorem deliver_cfg : (s.deliver cl st res).cfg = s.cfg := by simp [State.deliver]
@[simp] theorem deliver_rb : (s.deliver cl st res).rb = s.rb := by simp [State.deliver]
@[simp] theorem deliver_rp : (s.deliver cl st res).rp = s.rp := by simp [State.deliver]

/-- For an operation of the command port itself, delivering is responding and nothing else. -/
@[simp] theorem deliver_port : s.deliver .port st res = s.respond (.port .rp) st res := rfl

/-- A valid handle is one that has a row (R140). -/
theorem validHandle_iff (c : Cfg) (r : Handle) : c.validHandle r = true ↔ ∃ row, c.row r = some row := by
  rw [Cfg.validHandle, decide_eq_true_eq, Cfg.nRegs, Cfg.row]
  constructor
  · intro h; exact ⟨_, List.getElem?_eq_getElem h⟩
  · rintro ⟨row, h⟩; exact (List.getElem?_eq_some_iff.1 h).1

theorem row_eq_none_iff (c : Cfg) (h : Handle) : c.row h = none ↔ c.nRegs ≤ h.toNat := by
  simp [Cfg.row, Cfg.nRegs]

/-! ### Accepting an operation (R140, R175, R176) -/

variable {s} {t : State} {op : RpOp} {reg : Handle} {d : Data} {cl}

theorem acceptRegOp_busy (h : rpBusy s.rp = true) : s.acceptRegOp cl op reg d = s := by
  simp [State.acceptRegOp, h]

theorem acceptRegOp_invalid (h : rpBusy s.rp = false) (hr : s.cfg.row reg = none) :
    s.acceptRegOp cl op reg d = s.deliver cl .invalidPointer .none := by
  simp [State.acceptRegOp, h, hr]

theorem acceptRegOp_valid {row : RegRow} (h : rpBusy s.rp = false) (hr : s.cfg.row reg = some row) :
    s.acceptRegOp cl op reg d = (s.loadOp cl op reg d).setPhase .sel := by
  simp [State.acceptRegOp, h, hr]

/-- Presenting WRITE, READ or VERIFY does one of three things. -/
theorem acceptRegOp_cases (s : State) (cl : Client) (op : RpOp) (reg : Handle) (d : Data) :
    (rpBusy s.rp = true ∧ s.acceptRegOp cl op reg d = s) ∨
      (rpBusy s.rp = false ∧ s.cfg.row reg = none ∧
        s.acceptRegOp cl op reg d = s.deliver cl .invalidPointer .none) ∨
      (rpBusy s.rp = false ∧ s.cfg.validHandle reg = true ∧
        s.acceptRegOp cl op reg d = (s.loadOp cl op reg d).setPhase .sel) := by
  cases h : rpBusy s.rp with
  | true => exact .inl ⟨rfl, acceptRegOp_busy h⟩
  | false =>
    cases hr : s.cfg.row reg with
    | none => exact .inr (.inl ⟨rfl, rfl, acceptRegOp_invalid h hr⟩)
    | some row => exact .inr (.inr ⟨rfl, (validHandle_iff _ _).2 ⟨row, hr⟩, acceptRegOp_valid h hr⟩)

theorem acceptFlash_busy (h : rpBusy s.rp = true) (a : Data) : s.acceptFlash a = s := by
  simp [State.acceptFlash, h]

theorem acceptFlash_idle (h : rpBusy s.rp = false) (a : Data) :
    s.acceptFlash a = ((s.loadOp .port .flashRead s.rp.reg a).setPollCnt 0).setPhase .fSel := by
  simp [State.acceptFlash, h]

/-! ### The engine -/

theorem withRow_eq_next {f : RegRow → State} :
    withRow s reg f = .next t ↔ ∃ row, s.cfg.row reg = some row ∧ f row = t := by
  cases h : s.cfg.row reg <;> simp [withRow, h]

theorem withRow_eq_fault {f : RegRow → State} {r : Fault} (h : withRow s reg f = .fault r) :
    r = .noSuchRow ∧ s.cfg.row reg = none := by
  cases hr : s.cfg.row reg with
  | none => simp only [withRow, hr, Host.Outcome.fault.injEq] at h; exact ⟨h.symm, rfl⟩
  | some row => simp [withRow, hr] at h

@[simp] theorem exchangeRead_eq (s : State) (row : RegRow) : s.exchangeRead row = s.busXfer (readFrame s.cfg row) := rfl

@[simp] theorem exchangeWrite_eq (s : State) (row : RegRow) (d : Data) :
    s.exchangeWrite row d = s.busXfer (writeFrame s.cfg row d) := rfl

theorem rpBusy_eq_false (rp : RpState) : rpBusy rp = false ↔ rp.phase = .idle := by
  simp [rpBusy]

theorem rpBusy_eq_true (rp : RpState) : rpBusy rp = true ↔ rp.phase ≠ .idle := by
  simp [rpBusy]

/-- XFER sends one frame and latches a value; nothing but that frame, that value and the device's answers changes. -/
theorem engineXfer_next (h : engineXfer s = .next t) :
    ∃ row tx v, s.cfg.row s.rp.reg = some row ∧ tx ≠ [] ∧
      tx = (if s.rp.op = .write then writeFrame s.cfg row s.rp.data else readFrame s.cfg row) ∧
      t = ((s.busXfer tx).latch .ok v).setPhase .desel := by
  obtain ⟨row, hr, ht⟩ := withRow_eq_next.1 h
  cases hop : s.rp.op <;> simp only [hop] at ht <;> subst ht
  · exact ⟨row, writeFrame s.cfg row s.rp.data, s.rp.resValue, hr, by simp, by simp, rfl⟩
  all_goals exact ⟨row, readFrame s.cfg row, valueRead s row, hr, by simp, by simp, rfl⟩

/-- F_POLL sends one status frame, counts it, and goes to one of three phases (R171, R172). -/
theorem engineFPoll_next (h : engineFPoll s = .next t) :
    ∃ row, s.cfg.row s.cfg.regStatus = some row ∧
      ((deviceBusy s.cfg (valueRead s row) = false ∧
          t = ((s.busXfer (readFrame s.cfg row)).setPollCnt (s.rp.pollCnt + 1)).setPhase .fData) ∨
        (deviceBusy s.cfg (valueRead s row) = true ∧ pollLimitReached s.cfg (s.rp.pollCnt + 1) = false ∧
          t = ((s.busXfer (readFrame s.cfg row)).setPollCnt (s.rp.pollCnt + 1)).setPhase .fPoll) ∨
        (deviceBusy s.cfg (valueRead s row) = true ∧ pollLimitReached s.cfg (s.rp.pollCnt + 1) = true ∧
          t = (((s.busXfer (readFrame s.cfg row)).setPollCnt (s.rp.pollCnt + 1)).latch .timeout
            s.rp.resValue).setPhase .fDesel)) := by
  obtain ⟨row, hr, ht⟩ := withRow_eq_next.1 h
  refine ⟨row, hr, ?_⟩
  simp only [exchangeRead_eq] at ht
  split_ifs at ht with hb hl
  · exact .inr (.inr ⟨hb, hl, ht.symm⟩)
  · exact .inr (.inl ⟨hb, by simpa using hl, ht.symm⟩)
  · exact .inl ⟨by simpa using hb, ht.symm⟩

/-- Everything one step of the engine can do (R175): nothing in IDLE, one bus event otherwise. -/
theorem engineStep_next (h : engineStep s = .next t) :
    (s.rp.phase = .idle ∧ t = s) ∨
      (s.rp.phase = .sel ∧ t = (s.busCs 0#1).setPhase .xfer) ∨
      (s.rp.phase = .fSel ∧ t = (s.busCs 0#1).setPhase .fAddr) ∨
      (s.rp.phase = .xfer ∧ engineXfer s = .next t) ∨
      ((s.rp.phase = .desel ∨ s.rp.phase = .fDesel) ∧
        t = ((s.busCs 1#1).setPhase .idle).deliver s.rp.client s.rp.resStatus (latchedResult s.rp)) ∨
      (s.rp.phase = .fAddr ∧ ∃ row, s.cfg.row s.cfg.regFlashAddr = some row ∧
        t = (s.busXfer (writeFrame s.cfg row s.rp.data)).setPhase .fMode) ∨
      (s.rp.phase = .fMode ∧ ∃ row, s.cfg.row s.cfg.regFlashMode = some row ∧
        t = (s.busXfer (writeFrame s.cfg row s.cfg.modeCopyToOutput)).setPhase .fPoll) ∨
      (s.rp.phase = .fPoll ∧ engineFPoll s = .next t) ∨
      (s.rp.phase = .fData ∧ ∃ row v, s.cfg.row s.cfg.regFlashDataOut = some row ∧
        t = ((s.busXfer (readFrame s.cfg row)).latch .ok v).setPhase .fDesel) := by
  cases hp : s.rp.phase <;> simp only [engineStep, hp] at h
  case idle => exact .inl ⟨rfl, (Host.Outcome.next.inj h).symm⟩
  case sel => exact .inr (.inl ⟨rfl, (Host.Outcome.next.inj h).symm⟩)
  case fSel => exact .inr (.inr (.inl ⟨rfl, (Host.Outcome.next.inj h).symm⟩))
  case xfer => exact .inr (.inr (.inr (.inl ⟨rfl, h⟩)))
  case desel => exact .inr (.inr (.inr (.inr (.inl ⟨.inl rfl, (Host.Outcome.next.inj h).symm⟩))))
  case fDesel => exact .inr (.inr (.inr (.inr (.inl ⟨.inr rfl, (Host.Outcome.next.inj h).symm⟩))))
  case fAddr =>
    obtain ⟨row, hr, ht⟩ := withRow_eq_next.1 h
    exact .inr (.inr (.inr (.inr (.inr (.inl ⟨rfl, row, hr, ht.symm⟩)))))
  case fMode =>
    obtain ⟨row, hr, ht⟩ := withRow_eq_next.1 h
    exact .inr (.inr (.inr (.inr (.inr (.inr (.inl ⟨rfl, row, hr, ht.symm⟩))))))
  case fPoll => exact .inr (.inr (.inr (.inr (.inr (.inr (.inr (.inl ⟨rfl, h⟩)))))))
  case fData =>
    obtain ⟨row, hr, ht⟩ := withRow_eq_next.1 h
    exact .inr (.inr (.inr (.inr (.inr (.inr (.inr (.inr ⟨rfl, row, _, hr, ht.symm⟩)))))))

end Sys2Proof.Machine
end

