-- ==== Sys2Proof/Laws/Encoding.lean ====
section
/-! SUPPORT. The fields of command words: bytes in a word, the opcode field, the operand fields above it. -/

namespace Sys2Proof

theorem natOfBytes_lt (bs : List Byte) : natOfBytes bs < 2 ^ (8 * bs.length) := by
  induction bs with
  | nil => simp [natOfBytes]
  | cons b bs ih =>
    have := b.isLt
    simp only [natOfBytes, List.length_cons, Nat.mul_add, Nat.pow_add, Nat.mul_one]
    omega

@[simp] theorem bytesOfNat_length (n w : Nat) : (bytesOfNat n w).length = n := by
  induction n generalizing w with
  | zero => rfl
  | succ n ih => simp [bytesOfNat, ih]

/-- The bytes put in a word are the bytes read from it. -/
theorem bytesOfNat_natOfBytes (bs : List Byte) : bytesOfNat bs.length (natOfBytes bs) = bs := by
  induction bs with
  | nil => rfl
  | cons b bs ih =>
    have hb := b.isLt
    simp only [natOfBytes, List.length_cons, bytesOfNat, Nat.shiftRight_eq_div_pow]
    congr 1
    · apply BitVec.eq_of_toNat_eq
      rw [BitVec.toNat_ofNat]
      omega
    · rw [show (b.toNat + 2 ^ 8 * natOfBytes bs) / 2 ^ 8 = natOfBytes bs by omega, ih]

/-- The bytes read from a word are its low bits. -/
theorem natOfBytes_bytesOfNat (n w : Nat) : natOfBytes (bytesOfNat n w) = w % 2 ^ (8 * n) := by
  induction n generalizing w with
  | zero => simp [bytesOfNat, natOfBytes, Nat.mod_one]
  | succ n ih =>
    simp only [bytesOfNat, natOfBytes, ih, Nat.shiftRight_eq_div_pow, BitVec.toNat_ofNat]
    rw [show 8 * (n + 1) = 8 + 8 * n by omega, Nat.pow_add, Nat.mod_mul]

theorem opcode_lt (i : Instr) : i.opcode < 16 := by cases i <;> simp [Instr.opcode]

/-- Above the opcode of an encoded operation stand its operand fields. -/
theorem encode_shiftRight (c : Cfg) (i : Instr) : encode c i >>> 4 = operandBits c i := by
  have := opcode_lt i
  simp only [encode, Nat.shiftRight_eq_div_pow]
  omega

theorem encode_opcodeField (c : Cfg) (i : Instr) : bitField (encode c i) 0 4 = i.opcode := by
  have := opcode_lt i
  simp only [bitField, encode, Nat.shiftRight_eq_div_pow]
  omega

/-- A field above the opcode is a field of the operands. -/
theorem encode_bitField (c : Cfg) (i : Instr) (lo n : Nat) :
    bitField (encode c i) (lo + 4) n = bitField (operandBits c i) lo n := by
  rw [bitField, Nat.add_comm, Nat.shiftRight_add, encode_shiftRight, bitField]

/-- The lowest field of two. -/
theorem bitField_low {a b m : Nat} (h : a < 2 ^ m) : bitField (a + 2 ^ m * b) 0 m = a := by
  rw [bitField, Nat.shiftRight_zero, Nat.add_mul_mod_self_left, Nat.mod_eq_of_lt h]

/-- The field above the lowest one. -/
theorem bitField_high {a b m n : Nat} (h : a < 2 ^ m) (hb : b < 2 ^ n) : bitField (a + 2 ^ m * b) m n = b := by
  rw [bitField, Nat.shiftRight_eq_div_pow, Nat.add_mul_div_left _ _ (Nat.two_pow_pos m), Nat.div_eq_of_lt h,
    Nat.zero_add, Nat.mod_eq_of_lt hb]

theorem bitField_whole {a m : Nat} (h : a < 2 ^ m) : bitField a 0 m = a := by
  rw [bitField, Nat.shiftRight_zero, Nat.mod_eq_of_lt h]

end Sys2Proof
end

