-- ==== Sys2Proof/Laws/Invariants.lean ====
section
/-! SUPPORT. The operations over RB and the invariant of RB: what they keep of it, and what they make of `availCount`. -/

namespace Sys2Proof.Machine

variable {c : Cfg} {rb : RbState}

/-- The storage of the reset state is in canonical form. -/
theorem memory_wf_reset : Memory.wf State.reset.rb.mem = true := rfl

/-- Emptiness and fullness by the number of readable elements (R12, R13, R14). -/
theorem availCount_iff (h : RbInv c rb) (hi : rb.initialized = true) :
    (availCount c rb = 0 ↔ rb.head = rb.tail) ∧
      (availCount c rb + 1 = rb.capacity ↔ (rb.head + 1) % rb.capacity = rb.tail) := by
  have hc := capacity_pos h hi
  have hh := h.head hi
  have ht := h.tail hi
  rw [availCount_eq h hi, add_mod_capacity hh hc]
  constructor <;> split_ifs <;> omega

/-! ### Reset and INIT -/

theorem rbInv_reset (c : Cfg) : RbInv c RbState.reset := by
  constructor <;> simp [RbState.reset, Memory.wf]

/-- A buffer whose parameters pass the checks of R100 satisfies the invariant. -/
theorem rbInv_fresh {k elementSize : Nat} (hk : k < c.capW) (h₁ : 1 ≤ elementSize) (h₂ : elementSize < 2 ^ c.eszW)
    (hf : exceedsStorage c (2 ^ k) elementSize = false) : RbInv c (freshBuffer (2 ^ k) elementSize) where
  off := by simp [freshBuffer]
  pow _ := ⟨k, hk, rfl⟩
  head _ := Nat.two_pow_pos k
  tail _ := Nat.two_pow_pos k
  esz _ := ⟨h₁, h₂⟩
  fits _ := hf
  canon := rfl
  inside _ _ := rfl
  whole _ _ := .inr fun _ _ => rfl

/-! ### A slot written (R41) -/

/-- Writing a slot of the right length keeps the invariant. -/
theorem rbInv_slotWrite {rb' : RbState} {i : Nat} {e : Element} (h : RbInv c rb) (hw : slotWrite rb i e = .next rb') :
    RbInv c rb' := by
  obtain ⟨⟨hi, hic⟩, hl, rfl⟩ := (slotWrite_eq_next _ _ _).1 hw
  refine ⟨by simp [hi], h.pow, h.head, h.tail, h.esz, h.fits, memory_wf_writeBytes e h.canon _, fun a ha => ?_,
    fun k hk => ?_⟩
  · have := Nat.mul_le_mul_right rb.elementSize (Nat.succ_le_of_lt hic)
    rw [Nat.succ_mul] at this
    have ha' : rb.capacity * rb.elementSize ≤ a := ha
    exact (readByte_writeBytes_other _ _ _ _ (by omega)).trans (h.inside a ha')
  · by_cases hki : k = i
    · exact .inl ⟨e, by rw [slotRead_written ⟨hi, hic⟩ hl, if_pos hki]⟩
    · rcases h.whole k hk with ⟨e', he'⟩ | hu
      · exact .inl ⟨e', by rw [slotRead_written ⟨hi, hic⟩ hl, if_neg hki, he']⟩
      · refine .inr fun j hj => (readByte_writeBytes_other _ _ _ _ ?_).trans (hu j hj)
        have hj' : j < rb.elementSize := hj
        rcases Nat.lt_or_gt_of_ne hki with h | h
        · have := Nat.mul_le_mul_right rb.elementSize (Nat.succ_le_of_lt h)
          rw [Nat.succ_mul] at this
          simp only; omega
        · have := Nat.mul_le_mul_right rb.elementSize (Nat.succ_le_of_lt h)
          rw [Nat.succ_mul] at this
          simp only; omega

/-! ### The indices moved (R101, R102, R103) -/

theorem advanceHead_head (h : RbInv c rb) (hi : rb.initialized = true) :
    (advanceHead c rb).head = (rb.head + 1) % rb.capacity := wrapIndex_eq_mod h hi _

theorem advanceHead_tail (h : RbInv c rb) (hi : rb.initialized = true) :
    (advanceHead c rb).tail =
      if (rb.head + 1) % rb.capacity = rb.tail then (rb.tail + 1) % rb.capacity else rb.tail := by
  simp only [advanceHead, wrapIndex_eq_mod h hi]

theorem advanceTail_tail (h : RbInv c rb) (hi : rb.initialized = true) (k : Nat) :
    (advanceTail c rb k).tail = (rb.tail + k) % rb.capacity := wrapIndex_eq_mod h hi _

theorem rbInv_advanceHead (h : RbInv c rb) (hi : rb.initialized = true) : RbInv c (advanceHead c rb) := by
  refine ⟨by simp [hi], h.pow, fun _ => ?_, fun _ => ?_, h.esz, h.fits, h.canon, h.inside, h.whole⟩
  · rw [advanceHead_head h hi]
    exact Nat.mod_lt _ (capacity_pos h hi)
  · rw [advanceHead_tail h hi]
    split_ifs
    · exact Nat.mod_lt _ (capacity_pos h hi)
    · exact h.tail hi

theorem rbInv_advanceTail (h : RbInv c rb) (hi : rb.initialized = true) (k : Nat) : RbInv c (advanceTail c rb k) := by
  refine ⟨by simp [hi], h.pow, h.head, fun _ => ?_, h.esz, h.fits, h.canon, h.inside, h.whole⟩
  rw [advanceTail_tail h hi]
  exact Nat.mod_lt _ (capacity_pos h hi)

/-- PUT's index move makes one more element readable, unless the buffer was full (R101, R112). -/
theorem availCount_advanceHead (h : RbInv c rb) (hi : rb.initialized = true) :
    availCount c (advanceHead c rb) =
      if availCount c rb + 1 = rb.capacity then availCount c rb else availCount c rb + 1 := by
  have hc := capacity_pos h hi
  have hh := h.head hi
  have ht := h.tail hi
  rw [availCount_eq (rbInv_advanceHead h hi) hi, availCount_eq h hi, advanceHead_head h hi, advanceHead_tail h hi]
  simp only [advanceHead_capacity, add_mod_capacity hh hc, add_mod_capacity ht hc]
  split_ifs <;> omega

/-- Moving `tail` by `k` readable elements makes `k` fewer readable (R102, R103). -/
theorem availCount_advanceTail (h : RbInv c rb) (hi : rb.initialized = true) {k : Nat} (hk : k ≤ availCount c rb) :
    availCount c (advanceTail c rb k) = availCount c rb - k := by
  have hc := capacity_pos h hi
  have hh := h.head hi
  have ht := h.tail hi
  have ha := availCount_lt h hi
  rw [availCount_eq (rbInv_advanceTail h hi k) hi, advanceTail_tail h hi, add_mod_capacity ht (by omega)]
  rw [availCount_eq h hi] at *
  simp only [advanceTail_head, advanceTail_capacity]
  split_ifs at * <;> omega

/-! ### Runs of the engine -/

theorem engineRun_add (m n : Nat) (s : State) : engineRun (m + n) s = andThen (engineRun m s) (engineRun n) := by
  induction m generalizing s with
  | zero => simp [engineRun]
  | succ m ih =>
    rw [Nat.add_right_comm]
    simp only [engineRun]
    cases engineStep s <;> simp [ih]

/-- The bus discipline over a history with one more event (R230). -/
theorem busLevelFrom_append (l : BitVec 1) (h : List BusEvent) (e : BusEvent) :
    busLevelFrom l (h ++ [e]) = (busLevelFrom l h).bind fun l' => busLevelFrom l' [e] := by
  induction h generalizing l with
  | nil => rfl
  | cons x h ih =>
    cases x <;> simp only [List.cons_append, busLevelFrom] <;> split_ifs <;> simp [ih]

end Sys2Proof.Machine
end

