-- ==== Sys2Proof/Laws/PerInstr.lean ====
section
/-! SUPPORT. Statements about every operation as syntax, one lemma per constructor. -/

namespace Sys2Proof.Laws.OpcodeField

/-- The lowest four bits of an operation's command word are its opcode, and bit 3 of the opcode selects the unit (R71). -/
def Statement (i : Instr) : Prop :=
  ∀ c : Cfg, bitField (encode c i) 0 4 = i.opcode ∧ (bitField (encode c i) 3 1 = 1 ↔ i.port = .rp)

theorem of_encode (c : Cfg) (i : Instr) (h : i.opcode < 16) (hp : i.opcode / 8 = 1 ↔ i.port = .rp) :
    bitField (encode c i) 0 4 = i.opcode ∧ (bitField (encode c i) 3 1 = 1 ↔ i.port = .rp) := by
  simp only [bitField, encode, Nat.shiftRight_eq_div_pow]
  refine ⟨by omega, ?_⟩
  rw [← hp]
  omega

theorem init (a b : Nat) : Statement (.init a b) := fun c => of_encode c _ (by simp [Instr.opcode]) (by simp [Instr.opcode, Instr.port])
theorem put (a : Element) : Statement (.put a) := fun c => of_encode c _ (by simp [Instr.opcode]) (by simp [Instr.opcode, Instr.port])
theorem get : Statement .get := fun c => of_encode c _ (by simp [Instr.opcode]) (by simp [Instr.opcode, Instr.port])
theorem getMany (a : Nat) : Statement (.getMany a) := fun c => of_encode c _ (by simp [Instr.opcode]) (by simp [Instr.opcode, Instr.port])
theorem isEmpty : Statement .isEmpty := fun c => of_encode c _ (by simp [Instr.opcode]) (by simp [Instr.opcode, Instr.port])
theorem isFull : Statement .isFull := fun c => of_encode c _ (by simp [Instr.opcode]) (by simp [Instr.opcode, Instr.port])
theorem destroy : Statement .destroy := fun c => of_encode c _ (by simp [Instr.opcode]) (by simp [Instr.opcode, Instr.port])
theorem write (a : Handle) (b : Data) : Statement (.write a b) := fun c => of_encode c _ (by simp [Instr.opcode]) (by simp [Instr.opcode, Instr.port])
theorem read (a : Handle) : Statement (.read a) := fun c => of_encode c _ (by simp [Instr.opcode]) (by simp [Instr.opcode, Instr.port])
theorem verify (a : Handle) (b : Data) : Statement (.verify a b) := fun c => of_encode c _ (by simp [Instr.opcode]) (by simp [Instr.opcode, Instr.port])
theorem flashRead (a : Data) : Statement (.flashRead a) := fun c => of_encode c _ (by simp [Instr.opcode]) (by simp [Instr.opcode, Instr.port])
theorem flashWrite (a : Data) : Statement (.flashWrite a) := fun c => of_encode c _ (by simp [Instr.opcode]) (by simp [Instr.opcode, Instr.port])

end Sys2Proof.Laws.OpcodeField
end

