-- ==== Sys2Proof/Laws/Turns.lean ====
section
/-! SUPPORT. What taking a turn and one step of the machine can do. -/

namespace Sys2Proof.Machine

/-- `u` is `s` but for the inputs: the same block, nothing returned in between. -/
structure SameBlock (s u : State) : Prop where
  cfg : u.cfg = s.cfg
  rb : u.rb = s.rb
  rp : u.rp = s.rp
  responses : u.responses = s.responses

theorem SameBlock.refl (s : State) : SameBlock s s := ⟨rfl, rfl, rfl, rfl⟩

/-- Taking the turn changes the schedule or the counter of free values, nothing else. -/
theorem afterTurn_sameBlock (s : State) : SameBlock s (afterTurn s) := by
  simp only [afterTurn]
  split
  · exact ⟨rfl, rfl, rfl, rfl⟩
  · split <;> exact ⟨rfl, rfl, rfl, rfl⟩

@[simp] theorem afterTurn_cfg (s : State) : (afterTurn s).cfg = s.cfg := (afterTurn_sameBlock s).cfg
@[simp] theorem afterTurn_rb (s : State) : (afterTurn s).rb = s.rb := (afterTurn_sameBlock s).rb
@[simp] theorem afterTurn_rp (s : State) : (afterTurn s).rp = s.rp := (afterTurn_sameBlock s).rp
@[simp] theorem afterTurn_responses (s : State) : (afterTurn s).responses = s.responses :=
  (afterTurn_sameBlock s).responses

/-- Taking the turn changes no input but the schedule and the counter of free values. -/
theorem afterTurn_env (s : State) :
    (afterTurn s).env = { s.env with sched := (afterTurn s).env.sched, freeCount := (afterTurn s).env.freeCount } := by
  simp only [afterTurn]
  split
  · rfl
  · split <;> rfl

@[simp] theorem afterTurn_producer (s : State) : (afterTurn s).env.producer = s.env.producer := by rw [afterTurn_env]
@[simp] theorem afterTurn_consumer (s : State) : (afterTurn s).env.consumer = s.env.consumer := by rw [afterTurn_env]
@[simp] theorem afterTurn_rpRequests (s : State) : (afterTurn s).env.rp = s.env.rp := by rw [afterTurn_env]
@[simp] theorem afterTurn_answers (s : State) : (afterTurn s).env.answers = s.env.answers := by rw [afterTurn_env]
@[simp] theorem afterTurn_samplePut (s : State) : (afterTurn s).env.samplePut = s.env.samplePut := by rw [afterTurn_env]
@[simp] theorem afterTurn_checkVerify (s : State) : (afterTurn s).env.checkVerify = s.env.checkVerify := by
  rw [afterTurn_env]

@[simp] theorem sampling_afterTurn (s : State) : sampling (afterTurn s) = sampling s := by simp [sampling]

/-- A request that runs is an operation of its port. -/
theorem issue_eq_next {p : Port} {w : Nat} {s t : State} :
    issue p w s = .next t ↔ ∃ i, decode s.cfg s.rb.elementSize w = .instr i ∧ i.port = p ∧ exec i s = .next t := by
  simp only [issue]
  cases hd : decode s.cfg s.rb.elementSize w with
  | reserved op => simp
  | instr i =>
    by_cases hp : i.port = p
    · simp [hp]
    · simp [hp]

/-- A request faults only in its operation. -/
theorem issue_eq_fault {p : Port} {w : Nat} {s : State} {r : Fault} (h : issue p w s = .fault r) :
    ∃ i, i.port = p ∧ exec i s = .fault r := by
  simp only [issue] at h
  cases hd : decode s.cfg s.rb.elementSize w with
  | reserved op => simp [hd] at h
  | instr i =>
    by_cases hp : i.port = p
    · exact ⟨i, hp, by simpa [hd, hp] using h⟩
    · simp [hd, hp] at h

/-- Everything one step can do: only inputs change; an operation runs, on its own port, and on the consumer port one that
is decoded from the word presented; the engine advances; or a half of a pseudo-operation is presented to the engine. -/
theorem step_cases {s t : State} (h : step s = .next t) :
    ∃ u, SameBlock s u ∧
      (t = u ∨
        (∃ i, nextTurn s = i.port ∧
          (i.port = .consumer → ∃ w rest, s.env.consumer = w :: rest ∧ decode s.cfg s.rb.elementSize w = .instr i) ∧
          exec i u = .next t) ∨
        (nextTurn s = .rp ∧ rpBusy u.rp = true ∧ engineStep u = .next t) ∨
        (∃ cl op reg d, op ≠ RpOp.flashRead ∧ t = u.acceptRegOp cl op reg d)) := by
  have hb := afterTurn_sameBlock s
  have hc : (afterTurn s).env.consumer = s.env.consumer := afterTurn_consumer s
  simp only [step] at h
  generalize afterTurn s = u at h hb hc
  have hput : ∀ (p : List ProducerReq), SameBlock s { u with env := { u.env with producer := p } } :=
    fun p => ⟨hb.cfg, hb.rb, hb.rp, hb.responses⟩
  have hcon : ∀ (p : List Nat), SameBlock s { u with env := { u.env with consumer := p } } :=
    fun p => ⟨hb.cfg, hb.rb, hb.rp, hb.responses⟩
  have hrp : ∀ (p : List RpReq), SameBlock s { u with env := { u.env with rp := p } } :=
    fun p => ⟨hb.cfg, hb.rb, hb.rp, hb.responses⟩
  cases hp : nextTurn s <;> simp only [hp, serve] at h
  case producer =>
    simp only [serveProducer] at h
    split at h
    · exact ⟨u, hb, .inl (Host.Outcome.next.inj h).symm⟩
    · split at h
      · rename_i v _
        exact ⟨{ u with env := { u.env with samplePut := none } }, ⟨hb.cfg, hb.rb, hb.rp, hb.responses⟩,
          .inr (.inl ⟨.put (elemOfValue u.cfg v (scanWidth u.cfg)), rfl, by simp [Instr.port], h⟩)⟩
      · split at h
        · exact ⟨u, hb, .inl (Host.Outcome.next.inj h).symm⟩
        · obtain ⟨i, -, hip, hi⟩ := issue_eq_next.1 h
          exact ⟨_, hput _, .inr (.inl ⟨i, hip.symm, by simp [hip], hi⟩)⟩
        · split at h
          · exact ⟨u, hb, .inl (Host.Outcome.next.inj h).symm⟩
          · exact ⟨_, hput _, .inr (.inr (.inr ⟨_, _, _, _, by simp, (Host.Outcome.next.inj h).symm⟩))⟩
  case consumer =>
    simp only [serveConsumer] at h
    split at h
    · exact ⟨u, hb, .inl (Host.Outcome.next.inj h).symm⟩
    · rename_i w rest hw
      obtain ⟨i, hd, hip, hi⟩ := issue_eq_next.1 h
      exact ⟨_, hcon _, .inr (.inl ⟨i, hip.symm, fun _ => ⟨w, rest, hc.symm.trans hw, by rw [← hb.cfg, ← hb.rb]; exact hd⟩,
        hi⟩)⟩
  case rp =>
    simp only [serveRp] at h
    split at h
    · rename_i hbusy
      exact ⟨u, hb, .inr (.inr (.inl ⟨rfl, hbusy, h⟩))⟩
    · split at h
      · exact ⟨{ u with env := { u.env with checkVerify := none } }, ⟨hb.cfg, hb.rb, hb.rp, hb.responses⟩,
          .inr (.inr (.inr ⟨_, _, _, _, by simp, (Host.Outcome.next.inj h).symm⟩))⟩
      · split at h
        · exact ⟨u, hb, .inl (Host.Outcome.next.inj h).symm⟩
        · obtain ⟨i, -, hip, hi⟩ := issue_eq_next.1 h
          exact ⟨_, hrp _, .inr (.inl ⟨i, hip.symm, by simp [hip], hi⟩)⟩
        · exact ⟨_, hrp _, .inr (.inr (.inr ⟨_, _, _, _, by simp, (Host.Outcome.next.inj h).symm⟩))⟩

end Sys2Proof.Machine
end

