-- ==== Sys2Proof/Tests/Slice0.lean ====
section
/-! SUPPORT. Tests: the WellFormed checks, command words written out from R71 and R72, vectors of spec/95_test_vectors.md
(named V-… in the comments; expected values are the spec's), and for each statement a witness of its hypotheses. -/

namespace Sys2Proof.Machine.Tests

/-! ### Helpers -/

/-- The next state of an outcome satisfies `p`. -/
def nextIs (o : Host.Outcome State Fault Refusal) (p : State → Bool) : Bool :=
  match o with
  | .next t => p t
  | .fault _ => false
  | .refused _ => false

/-- The outcome is this fault. -/
def faultIs (o : Host.Outcome State Fault Refusal) (r : Fault) : Bool :=
  match o with
  | .fault f => decide (f = r)
  | .next _ => false
  | .refused _ => false

/-- The outcome is this refusal. -/
def refusedIs (o : Host.Outcome State Fault Refusal) (r : Refusal) : Bool :=
  match o with
  | .refused f => decide (f = r)
  | .next _ => false
  | .fault _ => false

/-- An outcome that satisfies `nextIs` is a next state. -/
theorem next_of_nextIs {o : Host.Outcome State Fault Refusal} {p : State → Bool} (h : nextIs o p = true) :
    ∃ t, o = .next t := by
  cases o with
  | next t => exact ⟨t, rfl⟩
  | fault r => cases h
  | refused r => cases h

/-- RB as `(1, capacity, elementSize, head, tail)` with these cells written. -/
def buf (capacity elementSize head tail : Nat) (mem : Memory) : RbState :=
  ⟨true, capacity, elementSize, head, tail, mem⟩

/-- The reset state under EXCFG with RB replaced. -/
def withBuf (rb : RbState) : State := { State.reset with rb := rb }

/-- Slots 0, 1 = `A B`. -/
def bTwo : RbState := buf 4 1 2 0 [(0, 0x41#8), (1, 0x42#8)]
/-- Full: slots 0..2 = `A B C`. -/
def bFull : RbState := buf 4 1 3 0 [(0, 0x41#8), (1, 0x42#8), (2, 0x43#8)]
/-- Full and wrapped: slots 0..3 = `A B C D`. -/
def bWrap : RbState := buf 4 1 0 1 [(0, 0x41#8), (1, 0x42#8), (2, 0x43#8), (3, 0x44#8)]
/-- The live range wraps: slots 5, 6, 7, 0, 1, 2 = `f g h i j k`. -/
def bRun : RbState :=
  buf 8 1 3 5 [(0, 0x69#8), (1, 0x6A#8), (2, 0x6B#8), (5, 0x66#8), (6, 0x67#8), (7, 0x68#8)]
/-- Empty, no slot written. -/
def bEmpty : RbState := buf 4 1 2 2 []
/-- Capacity 1: slot 0 = `x y`. -/
def bOne : RbState := buf 1 2 0 0 [(0, 0x78#8), (1, 0x79#8)]
/-- Capacity 2, element size 4, empty. -/
def bWide : RbState := buf 2 4 0 0 []

/-- One response after the reset state's none. -/
def only (to' : Receiver) (st : Status) (res : Result) : List Response := [⟨to', st, res⟩]

/-- The state with RP in phase `p` and nothing else in progress. -/
def rpAt (p : Phase) : RpState :=
  { RpState.reset with
    phase := p
    cs := phaseLevel p
    op := if flashPhase p then .flashRead else .read
    history := if phaseLevel p = 0#1 then [.cs 0#1] else [] }

/-- The reset state with RP in phase `p`, the RP port served next and these device answers. -/
def atPhase (p : Phase) (answers : List Byte) : State :=
  { State.reset with rp := rpAt p, env := { EnvState.reset with sched := [.rp], answers := answers } }

/-- EXCFG with a poll limit, nothing presented, and these device answers. -/
def scripted (limit : Option Nat) (answers : List Byte) : State :=
  { State.resetWith (exCfg limit) with env := { EnvState.reset with answers := answers } }

/-- An operation of RP with the engine run for `n` steps after it. -/
def runOp (i : Instr) (n : Nat) (s : State) : Host.Outcome State Fault Refusal := andThen (exec i s) (engineRun n)

/-! ### WellFormed: each check refuses its ill-formed term -/

theorem test_cfg_wf : (exCfg none).wf = true ∧ (exCfg (some 1)).wf = true := by decide
theorem test_cfg_capW : ({ exCfg none with capW := 0 } : Cfg).wf = false := by decide
theorem test_cfg_eszW : ({ exCfg none with eszW := 0 } : Cfg).wf = false := by decide
theorem test_cfg_noRegs : ({ exCfg none with regmap := [] } : Cfg).wf = false := by decide
theorem test_cfg_flashAddr : ({ exCfg none with regFlashAddr := 7#8 } : Cfg).wf = false := by decide
theorem test_cfg_flashMode : ({ exCfg none with regFlashMode := 7#8 } : Cfg).wf = false := by decide
theorem test_cfg_status : ({ exCfg none with regStatus := 7#8 } : Cfg).wf = false := by decide
theorem test_cfg_dataOut : ({ exCfg none with regFlashDataOut := 7#8 } : Cfg).wf = false := by decide
theorem test_cfg_scanResult : ({ exCfg none with regScanResult := 7#8 } : Cfg).wf = false := by decide
theorem test_cfg_busyBit : ({ exCfg none with busyBit := 8 } : Cfg).wf = false := by decide
theorem test_cfg_pollLimit : (exCfg (some 0)).wf = false := by decide
theorem test_wf_init_capacity : (Instr.init 256 1).wf (exCfg none) 1 = false := by decide
theorem test_wf_init_elementSize : (Instr.init 4 256).wf (exCfg none) 1 = false := by decide
theorem test_wf_put_length : (Instr.put [0x41#8, 0x42#8]).wf (exCfg none) 1 = false := by decide
theorem test_wf_getMany_count : (Instr.getMany 256).wf (exCfg none) 1 = false := by decide

/-! ### Decoding: words written out from R71 and R72 with `CAP_W = ESZ_W = 8` -/

-- INIT 16, 5 (V-RB12): elementSize 5 in bits 19 to 12, capacity 16 in bits 11 to 4, op 0.
theorem test_decode_init : decode (exCfg none) 0 0b00000101_00010000_0000 = .instr (.init 16 5) := by decide
-- 0x79781 is PUT x y with elementSize 2 (V-RB9); 0x1 is PUT with no element field (V-RB11).
theorem test_decode_put : decode (exCfg none) 2 0x79781 = .instr (.put [0x78#8, 0x79#8]) := by decide
theorem test_decode_put_empty : decode (exCfg none) 0 0x1 = .instr (.put []) := by decide
theorem test_decode_get : decode (exCfg none) 1 0b0010 = .instr .get := by decide
theorem test_decode_getMany : decode (exCfg none) 1 0b10000000_0011 = .instr (.getMany 128) := by decide
theorem test_decode_isEmpty : decode (exCfg none) 1 0b0100 = .instr .isEmpty := by decide
theorem test_decode_isFull : decode (exCfg none) 1 0b0101 = .instr .isFull := by decide
theorem test_decode_destroy : decode (exCfg none) 1 0b0110 = .instr .destroy := by decide
-- WRITE 2, 0x01020304 (V-RP5).
theorem test_decode_write : decode (exCfg none) 1 0x1020304028 = .instr (.write 2#8 0x01020304#32) := by decide
theorem test_decode_read : decode (exCfg none) 1 0b11111111_1001 = .instr (.read 255#8) := by decide
-- VERIFY 0, 0x15A (V-RP17).
theorem test_decode_verify : decode (exCfg none) 1 0x15A00A = .instr (.verify 0#8 0x15A#32) := by decide
-- FLASH_READ 0x00ABCDEF (V-F6).
theorem test_decode_flashRead : decode (exCfg none) 1 0xABCDEFB = .instr (.flashRead 0x00ABCDEF#32) := by decide
theorem test_decode_flashWrite : decode (exCfg none) 1 0x12C = .instr (.flashWrite 0x12#32) := by decide
-- V-X1.
theorem test_decode_reserved : decode (exCfg none) 1 0x7 = .reserved 7 ∧ decode (exCfg none) 1 0xD = .reserved 13 ∧
    decode (exCfg none) 1 0xE = .reserved 14 ∧ decode (exCfg none) 1 0xF = .reserved 15 := by decide
theorem test_tableWord : decodeTableWord 20 0x1040 = some (.init 4 1) ∧ decodeTableWord 4 0x7 = none := by decide
theorem test_encode_init : encode (exCfg none) (.init 4 1) = 0x1040 := by decide
theorem test_encode_write : encode (exCfg none) (.write 1#8 0x12345678#32) = 0x12345678018 := by decide

/-! ### Ring buffer vectors -/

-- V-RB12: INIT 16, 5 gives NoMemory (80 > 64).
theorem test_init_noMemory : nextIs (exec (.init 16 5) State.reset)
    (fun t => decide (t.rb = RbState.reset ∧ t.responses = only (.port .consumer) .noMemory .none)) = true := by decide
-- V-RB2, V-RB17.
theorem test_put_overwrites : nextIs (exec (.put [0x44#8]) (withBuf bFull)) (fun t => decide (t.rb = bWrap)) = true := by
  decide
theorem test_put_wide : nextIs (exec (.put [0x01#8, 0x02#8, 0x03#8, 0x04#8]) (withBuf bWide))
    (fun t => decide (t.rb = buf 2 4 1 0 [(0, 0x01#8), (1, 0x02#8), (2, 0x03#8), (3, 0x04#8)])) = true := by decide
-- V-RB4, V-RB10.
theorem test_get_wraps :
    nextIs (exec .get (withBuf (buf 4 1 1 3 [(0, 0x45#8), (3, 0x44#8)])))
      (fun t => decide (t.rb.tail = 0 ∧ t.responses = only (.port .consumer) .ok (.element [0x44#8]))) = true := by decide
theorem test_get_onEmpty : nextIs (exec .get (withBuf bEmpty))
    (fun t => decide (t.rb = bEmpty ∧ t.responses = only (.port .consumer) .getOnEmpty .none)) = true := by decide
-- V-RB7; R103 and U3: under GETMANY_LIMIT = capacity an Unwritten slot is reached.
theorem test_getMany_clamps : nextIs (exec (.getMany 9) (withBuf bRun))
    (fun t => decide (t.rb.tail = 3 ∧ t.responses = only (.port .consumer) .ok
      (.many 6 [[0x66#8], [0x67#8], [0x68#8], [0x69#8], [0x6A#8], [0x6B#8]]))) = true := by decide
theorem test_getMany_unwritten :
    faultIs (exec (.getMany 4)
      { withBuf bFull with cfg := { exCfg none with getManyLimit := .capacity } }) .unwrittenSlot = true := by decide
-- V-RB16, V-RB11.
theorem test_isEmpty : nextIs (exec .isEmpty (withBuf bEmpty))
    (fun t => decide (t.responses = only (.port .consumer) .ok (.bit true))) = true := by decide
theorem test_isFull_wrapped : nextIs (exec .isFull (withBuf bWrap))
    (fun t => decide (t.responses = only (.port .consumer) .ok (.bit true))) = true := by decide
theorem test_isFull_reset : nextIs (exec .isFull State.reset)
    (fun t => decide (t.responses = only (.port .consumer) .ok (.bit false))) = true := by decide
-- V-RB15.
theorem test_destroy : nextIs (exec .destroy (withBuf bWrap)) (fun t => decide (t.rb = RbState.reset)) = true := by decide

/-! ### Register protocol vectors -/

-- V-RP4 (truncation, most significant byte first), V-RP8.
theorem test_write : nextIs (runOp (.write 1#8 0x12345678#32) 3 (scripted none [0x00#8, 0x00#8, 0x00#8]))
    (fun t => decide (t.rp.history = [.cs 0#1, .xfer [0x02#8, 0x56#8, 0x78#8] [0x00#8, 0x00#8, 0x00#8], .cs 1#1] ∧
      t.responses = only (.port .rp) .ok .none ∧ t.rp.phase = .idle)) = true := by decide
theorem test_write_badHandle : nextIs (exec (.write 7#8 0x11#32) State.reset)
    (fun t => decide (t.rp = RpState.reset ∧ t.responses = only (.port .rp) .invalidPointer .none)) = true := by decide
-- V-RP10 (zero extension, the first byte ignored).
theorem test_read_zeroExtends : nextIs (runOp (.read 0#8) 3 (scripted none [0xAA#8, 0x80#8]))
    (fun t => decide (t.rp.history = [.cs 0#1, .xfer [0x81#8, 0x00#8] [0xAA#8, 0x80#8], .cs 1#1] ∧
      t.responses = only (.port .rp) .ok (.value 0x00000080#32))) = true := by decide
-- V-RP17 (expected is not masked), V-RP18.
theorem test_verify_unmasked : nextIs (runOp (.verify 0#8 0x15A#32) 3 (scripted none [0x00#8, 0x5A#8]))
    (fun t => decide (t.responses = only (.port .rp) .ok (.bit false))) = true := by decide
theorem test_verify_match : nextIs (runOp (.verify 1#8 0xBEEF#32) 3 (scripted none [0x00#8, 0xBE#8, 0xEF#8]))
    (fun t => decide (t.responses = only (.port .rp) .ok (.bit true))) = true := by decide

/-! ### Flash vectors -/

/-- The device's answers of V-F1: the address frame (3 bytes), the mode frame (2), a busy status, a clear status, the data. -/
def answersF1 : List Byte :=
  [0x00#8, 0x00#8, 0x00#8, 0x00#8, 0x00#8, 0x00#8, 0x08#8, 0x00#8, 0x00#8, 0x00#8, 0xCA#8, 0xFE#8]

/-- The answers of V-F3: three busy statuses. -/
def answersF3 : List Byte :=
  [0x00#8, 0x00#8, 0x00#8, 0x00#8, 0x00#8, 0x00#8, 0x08#8, 0x00#8, 0x08#8, 0x00#8, 0x08#8]

/-- The answers of V-F4: busy, busy (every low bit set), clear, the data. -/
def answersF4 : List Byte :=
  [0x00#8, 0x00#8, 0x00#8, 0x00#8, 0x00#8, 0x00#8, 0x08#8, 0x00#8, 0x0F#8, 0x00#8, 0x00#8, 0x00#8, 0x12#8, 0x34#8]

-- V-F1.
theorem test_flashRead : nextIs (runOp (.flashRead 0x0123#32) 7 (scripted none answersF1))
    (fun t => decide (t.rp.history = [.cs 0#1, .xfer [0x05#8, 0x01#8, 0x23#8] [0x00#8, 0x00#8, 0x00#8],
        .xfer [0x06#8, 0x02#8] [0x00#8, 0x00#8], .xfer [0x84#8, 0x00#8] [0x00#8, 0x08#8],
        .xfer [0x84#8, 0x00#8] [0x00#8, 0x00#8], .xfer [0x87#8, 0x00#8, 0x00#8] [0x00#8, 0xCA#8, 0xFE#8], .cs 1#1] ∧
      t.responses = only (.port .rp) .ok (.value 0x0000CAFE#32) ∧ t.rp.pollCnt = 2)) = true := by decide
-- V-F3.
theorem test_flashRead_timeout : nextIs (runOp (.flashRead 0x0123#32) 7 (scripted (some 3) answersF3))
    (fun t => decide (t.responses = only (.port .rp) .timeout .none ∧ t.rp.pollCnt = 3 ∧ t.rp.phase = .idle ∧
      t.rp.history.length = 7)) = true := by decide
-- V-X2, V-X3.
theorem test_flashWrite : refusedIs (exec (.flashWrite 0x12#32) State.reset) .flashWriteReserved = true := by decide
theorem test_wrongPort : refusedIs (issue .producer 0x2 State.reset) .wrongPort = true ∧
    refusedIs (issue .consumer 0x1 State.reset) .wrongPort = true ∧
    refusedIs (issue .consumer 0x8 State.reset) .wrongPort = true := by decide
-- V-X4.
theorem test_read_held : nextIs (exec (.read 0#8) (atPhase .fPoll [])) (fun t => decide (t = atPhase .fPoll [])) = true := by
  decide

/-! ### Status codes (R190, D3) and the first step after reset -/

theorem test_statusCodes :
    [Status.ok, .invalidPointer, .invalidSize, .noMemory, .getOnEmpty, .notInitialized, .noActiveChannel,
      .unsuccessfulRegisterWrite, .invalidBufferState, .timeout].map statusCode =
      [0#4, 1#4, 2#4, 3#4, 4#4, 5#4, 6#4, 7#4, 8#4, 9#4] := by decide
-- V-RB12: INIT 4, 1, through a step.
theorem test_step_init : nextIs (step (State.reset.withFetchWord 20 0x1040))
    (fun t => decide (t.rb = buf 4 1 0 0 [] ∧ t.responses = only (.port .consumer) .ok .none)) = true := by decide

/-! ### Witnesses: states and operands that meet the hypotheses of each statement -/

/-- The invariant of RB, from facts that evaluate. -/
theorem rbInv_of {c : Cfg} {rb : RbState} (k : Nat) (hi : rb.initialized = true) (hk : k < c.capW)
    (hc : rb.capacity = 2 ^ k) (hh : rb.head < rb.capacity) (ht : rb.tail < rb.capacity)
    (he : 1 ≤ rb.elementSize ∧ rb.elementSize < 2 ^ c.eszW) (hf : exceedsStorage c rb.capacity rb.elementSize = false)
    (hm : Memory.wf rb.mem = true) (hb : ∀ p ∈ rb.mem, p.1 < rb.capacity * rb.elementSize)
    (hw : ∀ i, i < rb.capacity → (readBytes rb.mem (i * rb.elementSize) rb.elementSize).isSome = true ∨
      ∀ j, j < rb.elementSize → readByte rb.mem (i * rb.elementSize + j) = none) : RbInv c rb where
  off h := by rw [hi] at h; cases h
  pow _ := ⟨k, hk, hc⟩
  head _ := hh
  tail _ := ht
  esz _ := he
  fits _ := hf
  canon := hm
  inside a ha := by
    generalize rb.mem = m at hb
    induction m with
    | nil => rfl
    | cons p m ih =>
      obtain ⟨b, v⟩ := p
      have := hb (b, v) (by simp)
      rw [readByte_cons, if_neg (by simp only at this; omega), ih fun p hp => hb p (by simp [hp])]
  whole i hic := by
    refine (hw i hic).imp (fun h => ?_) fun h => h
    obtain ⟨e, he⟩ := Option.isSome_iff_exists.1 h
    exact ⟨e, by simp [slotRead, slotExists, hi, hic, he]⟩

theorem test_inv_two : RbInv (exCfg none) bTwo :=
  rbInv_of 2 rfl (by decide) rfl (by decide) (by decide) (by decide) rfl rfl (by decide) (by decide)
theorem test_inv_full : RbInv (exCfg none) bFull :=
  rbInv_of 2 rfl (by decide) rfl (by decide) (by decide) (by decide) rfl rfl (by decide) (by decide)
theorem test_inv_wrap : RbInv (exCfg none) bWrap :=
  rbInv_of 2 rfl (by decide) rfl (by decide) (by decide) (by decide) rfl rfl (by decide) (by decide)
theorem test_inv_run : RbInv (exCfg none) bRun :=
  rbInv_of 3 rfl (by decide) rfl (by decide) (by decide) (by decide) rfl rfl (by decide) (by decide)
theorem test_inv_empty : RbInv (exCfg none) bEmpty :=
  rbInv_of 2 rfl (by decide) rfl (by decide) (by decide) (by decide) rfl rfl (by decide) (by decide)
theorem test_inv_one : RbInv (exCfg none) bOne :=
  rbInv_of 0 rfl (by decide) rfl (by decide) (by decide) (by decide) rfl rfl (by decide) (by decide)
theorem test_inv_off : RbInv (exCfg none) RbState.reset := rbInv_reset _

/-- The live range of the wrapped run is written. -/
theorem test_live_run : LiveInv (exCfg none) bRun := by
  intro _ j hj
  have : j < 6 := hj
  interval_cases j <;> exact ⟨_, rfl⟩

theorem test_rpInv_at (p : Phase) : RpInv (exCfg none) (rpAt p) := by
  cases p <;> constructor <;> decide

theorem test_inv_atPhase (p : Phase) (answers : List Byte) : Inv (atPhase p answers) :=
  ⟨test_cfg_wf.1, rbInv_reset _, test_rpInv_at p⟩

/-! Encoding. -/

theorem test_hyp_roundTrip : (Instr.init 255 255).wf (exCfg none) 0 = true ∧ (Instr.put []).wf (exCfg none) 0 = true ∧
    (Instr.put [0x41#8]).wf (exCfg none) 1 = true ∧ (Instr.getMany 0).wf (exCfg none) 0 = true := by decide
theorem test_hyp_decodedWord : decode (exCfg none) 1 0xFFFFFFFFF2 = .instr .get ∧
    decode (exCfg none) 0 0xFFFF0 = .instr (.init 255 255) := by decide
theorem test_hyp_refused : decode State.reset.cfg State.reset.rb.elementSize 0xFF = .reserved 15 ∧
    decode State.reset.cfg State.reset.rb.elementSize 0x7 = .reserved 7 ∧
    decode State.reset.cfg State.reset.rb.elementSize 0x2 = .instr .get ∧ Instr.get.port ≠ .producer := by decide

/-! The step. -/

/-- A GET presented on the consumer port with nothing scheduled. -/
def getPending : State := { State.reset with env := { EnvState.reset with consumer := [0x2] } }

theorem test_hyp_turn : (State.reset.withFetchWord 4 0x2).env.sched = [.consumer] ∧
    getPending.env.sched = [] ∧ readyPorts getPending = [.consumer] := by decide
theorem test_hyp_stepRuns_consumer : decode getPending.cfg getPending.rb.elementSize 0x2 = .instr .get ∧
    nextTurn getPending = Instr.get.port ∧ getPending.env.consumer = [0x2] := by decide
theorem test_hyp_stepRuns_producer :
    decode State.reset.cfg State.reset.rb.elementSize 0x1 = .instr (.put []) ∧
    nextTurn (State.reset.withFetchWord 4 0x1) = .producer ∧
    (State.reset.withFetchWord 4 0x1).env.producer = [.word 0x1] ∧ sampling (State.reset.withFetchWord 4 0x1) = false ∧
    (State.reset.withFetchWord 4 0x1).env.samplePut = none := by decide
theorem test_hyp_stepRuns_rp :
    decode State.reset.cfg State.reset.rb.elementSize 0x19 = .instr (.read 1#8) ∧
    nextTurn (State.reset.withFetchWord 12 0x19) = .rp ∧ (State.reset.withFetchWord 12 0x19).env.rp = [.word 0x19] ∧
    (State.reset.withFetchWord 12 0x19).rp.phase = .idle ∧
    (State.reset.withFetchWord 12 0x19).env.checkVerify = none := by decide
theorem test_hyp_busy : (atPhase .fPoll []).rp.phase ≠ .idle ∧ nextTurn (atPhase .fPoll []) = .rp ∧
    nextIs (step (atPhase .sel [])) (fun t => decide (t.rp.phase = .xfer)) = true := by decide
/-- A request of agent P presented while the engine polls. -/
def busyProducer (req : ProducerReq) : State :=
  { atPhase .fPoll [] with env := { EnvState.reset with sched := [.producer], producer := [req] } }
theorem test_hyp_busySample (req : ProducerReq) : (busyProducer req).rp.phase ≠ .idle ∧
    (busyProducer req).rp.client ≠ .sample ∧ (busyProducer req).env.samplePut = none ∧
    nextTurn (busyProducer req) = .producer ∧ (busyProducer req).env.producer = [req] :=
  ⟨by simp [busyProducer, atPhase, rpAt], by simp [busyProducer, atPhase, rpAt, RpState.reset], rfl, rfl, rfl⟩
theorem test_hyp_busyPut : decode (busyProducer (.word 0x1)).cfg (busyProducer (.word 0x1)).rb.elementSize 0x1 =
    .instr (.put []) := by decide
theorem test_hyp_parameters : Instr.get.opcode ≠ 0x0 ∧ Instr.get.opcode ≠ 0x6 ∧
    nextIs (exec .get State.reset) (fun _ => true) = true ∧
    nextIs (engineStep (atPhase .sel [])) (fun _ => true) = true := by decide
/-- A step that changes the parameters: a DESTROY presented to a full buffer. -/
theorem test_hyp_parameters_change :
    nextIs (step ((withBuf bFull).withFetchWord 4 0x6)) (fun t => decide (t.rb.capacity ≠ bFull.capacity)) = true ∧
    nextTurn ((withBuf bFull).withFetchWord 4 0x6) = .consumer ∧
    ((withBuf bFull).withFetchWord 4 0x6).env.consumer = [0x6] ∧
    decode (exCfg none) bFull.elementSize 0x6 = .instr .destroy := by decide
/-- A step that does not, though it starts a SAMPLE's READ. -/
theorem test_hyp_parameters_sample :
    nextIs (step { State.reset with env := { EnvState.reset with producer := [.sample], sched := [.producer] } })
      (fun t => decide (t.rp.phase = .sel)) = true := by decide
/-- One step that answers a next state: of StepKeepsCfg, StepExtendsHistoryAndResponses. -/
theorem test_hyp_step : nextIs (step (atPhase .sel [])) (fun _ => true) = true ∧
    nextIs (step getPending) (fun _ => true) = true := by decide

/-! Reset and the invariants. -/

theorem test_hyp_resetInv : (exCfg none).wf = true ∧ (exCfg (some 1)).wf = true := by decide
theorem test_hyp_stepKeepsInv : Inv (atPhase .desel []) ∧ ∃ t, step (atPhase .desel []) = .next t :=
  ⟨test_inv_atPhase _ _, next_of_nextIs (p := fun _ => true) (by decide)⟩
/-- A GET presented to the wrapped run: of StepKeepsInv, StepKeepsLiveRange, NoStepFaults. -/
def runPending : State := { getPending with rb := bRun }
theorem test_hyp_liveRange : Inv runPending ∧ runPending.cfg.getManyLimit = .avail ∧
    LiveInv runPending.cfg runPending.rb ∧ ∃ t, step runPending = .next t :=
  ⟨⟨by decide, test_inv_run, test_rpInv_at .idle⟩, rfl, test_live_run, next_of_nextIs (p := fun _ => true) (by decide)⟩

/-! RB operations. -/

theorem test_hyp_init_twice : (withBuf bFull).rb.initialized = true ∧ 255 < 2 ^ (withBuf bFull).cfg.capW ∧
    255 < 2 ^ (withBuf bFull).cfg.eszW := by decide
theorem test_hyp_init_notPower : 6 < 2 ^ State.reset.cfg.capW ∧ 1 < 2 ^ State.reset.cfg.eszW ∧
    State.reset.rb.initialized = false ∧ ¬∃ k, 6 = 2 ^ k :=
  ⟨by decide, by decide, rfl, (isPowerOfTwo_iff 6).not.1 (by decide)⟩
theorem test_hyp_init_zero : 4 < 2 ^ State.reset.cfg.capW ∧ 0 < 2 ^ State.reset.cfg.eszW ∧
    State.reset.rb.initialized = false ∧ ∃ k, 4 = 2 ^ k := ⟨by decide, by decide, rfl, 2, rfl⟩
theorem test_hyp_init_noMemory : 128 < 2 ^ State.reset.cfg.capW ∧ State.reset.rb.initialized = false ∧ (∃ k, 128 = 2 ^ k) ∧
    ∃ n, State.reset.cfg.storageBytes = some n ∧ n < 128 * 1 := ⟨by decide, rfl, ⟨7, rfl⟩, 64, rfl, by decide⟩
theorem test_hyp_init_ok : 64 < 2 ^ State.reset.cfg.capW ∧ State.reset.rb.initialized = false ∧ (∃ k, 64 = 2 ^ k) ∧
    ∀ n, State.reset.cfg.storageBytes = some n → 64 * 1 ≤ n :=
  ⟨by decide, rfl, ⟨6, rfl⟩, fun n h => by cases h; decide⟩
theorem test_hyp_init_one : State.reset.rb.initialized = false ∧ ∃ k, 1 = 2 ^ k := ⟨rfl, 0, rfl⟩
theorem test_hyp_off : RbInv State.reset.cfg State.reset.rb ∧ State.reset.rb.initialized = false ∧
    1 ≤ State.reset.cfg.capW := ⟨rbInv_reset _, rfl, by decide⟩
theorem test_hyp_put : RbInv (withBuf bFull).cfg (withBuf bFull).rb ∧ (withBuf bFull).rb.initialized = true ∧
    [0x44#8].length = (withBuf bFull).rb.elementSize := ⟨test_inv_full, rfl, rfl⟩
theorem test_hyp_put_one : RbInv (withBuf bOne).cfg (withBuf bOne).rb ∧ (withBuf bOne).rb.initialized = true ∧
    [0x78#8, 0x79#8].length = (withBuf bOne).rb.elementSize ∧ (withBuf bOne).rb.capacity = 1 :=
  ⟨test_inv_one, rfl, rfl, rfl⟩
theorem test_hyp_put_wrongLength : RbInv (withBuf bTwo).cfg (withBuf bTwo).rb ∧ (withBuf bTwo).rb.initialized = true ∧
    ([] : Element).length ≠ (withBuf bTwo).rb.elementSize := ⟨test_inv_two, rfl, by decide⟩
theorem test_hyp_get_empty : RbInv (withBuf bEmpty).cfg (withBuf bEmpty).rb ∧ (withBuf bEmpty).rb.initialized = true ∧
    (withBuf bEmpty).rb.head = (withBuf bEmpty).rb.tail := ⟨test_inv_empty, rfl, rfl⟩
theorem test_hyp_get : RbInv (withBuf bRun).cfg (withBuf bRun).rb ∧ (withBuf bRun).rb.initialized = true ∧
    (withBuf bRun).rb.head ≠ (withBuf bRun).rb.tail ∧
    slotRead (withBuf bRun).rb (withBuf bRun).rb.tail = .next [0x66#8] := ⟨test_inv_run, rfl, by decide, rfl⟩

/-- The six readable elements of the wrapped run, oldest first. -/
def runElements : List Element := [[0x66#8], [0x67#8], [0x68#8], [0x69#8], [0x6A#8], [0x6B#8]]

theorem test_hyp_getMany : RbInv (withBuf bRun).cfg bRun ∧ bRun.initialized = true ∧ 9 ≠ 0 ∧
    9 < 2 ^ (withBuf bRun).cfg.capW ∧ 6 = min 9 (availCount (withBuf bRun).cfg bRun) ∧
    runElements.length = 6 ∧
    ∀ j (h : j < runElements.length), slotRead bRun ((bRun.tail + j) % bRun.capacity) = .next runElements[j] := by
  refine ⟨test_inv_run, rfl, by decide, by decide, by decide, rfl, fun j h => ?_⟩
  have : j < 6 := h
  interval_cases j <;> rfl
theorem test_hyp_getMany_zero : RbInv (withBuf bRun).cfg bRun ∧ bRun.initialized = true ∧
    0 < 2 ^ (withBuf bRun).cfg.capW ∧ 0 = min 0 (availCount (withBuf bRun).cfg bRun) :=
  ⟨test_inv_run, rfl, by decide, by decide⟩
/-- EXCFG with the other GETMANY_LIMIT. -/
def capacityCfg : Cfg := { exCfg none with getManyLimit := .capacity }
theorem test_hyp_getMany_unwritten : RbInv capacityCfg bFull ∧ bFull.initialized = true ∧ 255 < 2 ^ capacityCfg.capW ∧
    4 = min 255 bFull.capacity ∧ 3 < 4 ∧ slotUnwritten bFull ((bFull.tail + 3) % bFull.capacity) :=
  ⟨rbInv_of 2 rfl (by decide) rfl (by decide) (by decide) (by decide) rfl rfl (by decide) (by decide), rfl, by decide,
    by decide, by decide, by unfold slotUnwritten; decide⟩
theorem test_hyp_avail : RbInv (exCfg none) bWrap ∧ bWrap.initialized = true ∧ 2 ≤ bWrap.capacity :=
  ⟨test_inv_wrap, rfl, by decide⟩
theorem test_hyp_runRead : RbInv (exCfg none) bRun ∧ bRun.initialized = true ∧ 5 < bRun.capacity ∧ 8 ≤ bRun.capacity :=
  ⟨test_inv_run, rfl, by decide, by decide⟩
theorem test_hyp_getManyGets : RbInv (withBuf bRun).cfg bRun ∧ bRun.initialized = true ∧
    LiveInv (withBuf bRun).cfg bRun ∧ 4 < 2 ^ (withBuf bRun).cfg.capW ∧
    4 = min 4 (availCount (withBuf bRun).cfg bRun) ∧ 4 ≤ availCount (withBuf bRun).cfg bRun :=
  ⟨test_inv_run, rfl, test_live_run, by decide, by decide, by decide⟩
theorem test_hyp_getManyGets_clamps : RbInv (withBuf bRun).cfg bRun ∧ bRun.initialized = true ∧
    LiveInv (withBuf bRun).cfg bRun ∧ 9 < 2 ^ (withBuf bRun).cfg.capW ∧
    6 = min 9 (availCount (withBuf bRun).cfg bRun) ∧ availCount (withBuf bRun).cfg bRun < 9 ∧
    (withBuf bRun).cfg.getManyLimit = .avail :=
  ⟨test_inv_run, rfl, test_live_run, by decide, by decide, by decide, rfl⟩
theorem test_hyp_fifo_full : RbInv (exCfg none) bFull ∧ bFull.initialized = true ∧
    Holds (exCfg none) bFull [[0x41#8], [0x42#8], [0x43#8]] := by
  refine ⟨test_inv_full, rfl, rfl, fun j h => ?_⟩
  have : j < 3 := h
  interval_cases j <;> rfl
theorem test_hyp_fifo_empty : RbInv (exCfg none) bEmpty ∧ bEmpty.initialized = true ∧ Holds (exCfg none) bEmpty [] :=
  ⟨test_inv_empty, rfl, rfl, fun _ h => absurd h (Nat.not_lt_zero _)⟩
theorem test_hyp_puts : 2 < (withBuf (freshBuffer 4 1)).cfg.capW ∧
    (withBuf (freshBuffer 4 1)).rb = freshBuffer (2 ^ 2) 1 ∧
    RbInv (withBuf (freshBuffer 4 1)).cfg (withBuf (freshBuffer 4 1)).rb ∧
    ∀ e ∈ [[0x41#8], [0x42#8], [0x43#8], [0x44#8]], e.length = 1 :=
  ⟨by decide, rfl, rbInv_fresh (k := 2) (by decide) (by decide) (by decide) rfl, by decide⟩
theorem test_hyp_discards : RbInv (withBuf bFull).cfg (withBuf bFull).rb ∧ (withBuf bFull).rb.initialized = true ∧
    (withBuf bFull).cfg.getManyLimit = .avail ∧ (∀ i ∈ [Instr.put [0x44#8], .getMany 4, .get], steadyOp i = true) ∧
    ∃ t, execAll [Instr.put [0x44#8], .getMany 4, .get] (withBuf bFull) = .next t :=
  ⟨test_inv_full, rfl, rfl, by decide, next_of_nextIs (p := fun _ => true) (by decide)⟩
theorem test_hyp_rbError : Instr.get.port ≠ .rp ∧ nextIs (exec .get State.reset) (fun _ => true) = true ∧
    (Instr.put []).port ≠ .rp ∧ nextIs (exec (.put []) State.reset) (fun _ => true) = true := by decide

/-! RP operations. -/

theorem test_hyp_readValue : [0x12#8, 0xFF#8, 0x01#8].length = 1 + RegWidth.w2.bytes ∧
    [0x12#8, 0xFF#8].length = 1 + RegWidth.w1.bytes ∧
    [0x00#8, 0x80#8, 0x00#8, 0x00#8, 0x01#8].length = 1 + RegWidth.w4.bytes := by decide
theorem test_hyp_invalidHandle : State.reset.rp.phase = .idle ∧ State.reset.cfg.nRegs ≤ (7#8).toNat ∧
    State.reset.cfg.nRegs ≤ (255#8).toNat := by decide
/-- An idle engine and a valid handle, the last of the table: of WRITE, READ and VERIFY. -/
theorem test_hyp_validHandle : State.reset.rp.phase = .idle ∧
    State.reset.cfg.regmap[(6#8).toNat]? = some ⟨0x07#8, .w2, .r⟩ := by decide
theorem test_hyp_echo : [0x00#8, 0x00#8, 0x00#8].length = 1 + RegWidth.w2.bytes ∧
    State.reset.cfg.regmap[(1#8).toNat]? = some ⟨0x02#8, .w2, .rw⟩ ∧
    (scripted none [0x00#8, 0x00#8, 0x00#8, 0x00#8, 0x56#8, 0x78#8, 0x99#8]).env.answers =
      [0x00#8, 0x00#8, 0x00#8] ++
        (0x00#8 :: (writeFrame (exCfg none) ⟨0x02#8, .w2, .rw⟩ 0x12345678#32).drop 1) ++ [0x99#8] := by decide
theorem test_hyp_rpLeaveRb : (Instr.read 0#8).port = .rp ∧ nextIs (exec (.read 0#8) State.reset) (fun _ => true) = true ∧
    nextIs (engineStep (atPhase .sel [])) (fun _ => true) = true := by decide
theorem test_hyp_rpStatuses (p : Phase) : RpInv (atPhase p []).cfg (atPhase p []).rp ∧
    (atPhase p []).rp.client = .port := ⟨test_rpInv_at p, rfl⟩
theorem test_hyp_rpStatuses_next : nextIs (exec (.read 7#8) (atPhase .idle [])) (fun _ => true) = true ∧
    nextIs (engineStep (atPhase .desel [])) (fun _ => true) = true ∧
    nextIs (engineStep (atPhase .fDesel [])) (fun _ => true) = true := by decide

/-! The sequencer, the flash sequence and the pseudo-operations. -/

theorem test_hyp_phaseTable (p : Phase) : (atPhase p []).cfg.wf = true ∧ RpInv (atPhase p []).cfg (atPhase p []).rp :=
  ⟨test_cfg_wf.1, test_rpInv_at p⟩
theorem test_hyp_poll_busy : nextIs (step (atPhase .fPoll [0x00#8, 0x08#8])) (fun t => decide (t.rp.phase = .fPoll)) =
    true := by decide
theorem test_hyp_poll_clear : nextIs (step (atPhase .fPoll [0x00#8, 0xF7#8])) (fun t => decide (t.rp.phase = .fData)) =
    true := by decide
theorem test_hyp_poll_limit :
    nextIs (step { atPhase .fPoll [0x00#8, 0x08#8] with cfg := exCfg (some 1) })
      (fun t => decide (t.rp.phase = .fDesel)) = true := by decide

/-- The rows of EXCFG that the flash sequence uses. -/
theorem test_hyp_flashRows (limit : Option Nat) :
    (exCfg limit).row (exCfg limit).regFlashAddr = some ⟨0x05#8, .w2, .w⟩ ∧
    (exCfg limit).row (exCfg limit).regFlashMode = some ⟨0x06#8, .w1, .w⟩ ∧
    (exCfg limit).row (exCfg limit).regStatus = some ⟨0x04#8, .w1, .r⟩ ∧
    (exCfg limit).row (exCfg limit).regFlashDataOut = some ⟨0x07#8, .w2, .r⟩ := ⟨rfl, rfl, rfl, rfl⟩
theorem test_hyp_flashRead : (scripted none answersF1).rp.phase = .idle ∧
    (∀ k, k < 1 → busyAt (scripted none answersF1) 2 1 1 k = true) ∧
    busyAt (scripted none answersF1) 2 1 1 1 = false := by decide
theorem test_hyp_flashRead_lastRead : (scripted (some 3) answersF4).rp.phase = .idle ∧
    (∀ k, k < 2 → busyAt (scripted (some 3) answersF4) 2 1 1 k = true) ∧
    busyAt (scripted (some 3) answersF4) 2 1 1 2 = false ∧
    ∀ limit ∈ (scripted (some 3) answersF4).cfg.pollLimit, 2 + 1 ≤ limit := by decide
theorem test_hyp_timeout : (scripted (some 3) answersF3).rp.phase = .idle ∧ (scripted (some 3) answersF3).cfg.pollLimit = some 3 ∧
    ∀ k, k < 3 → busyAt (scripted (some 3) answersF3) 2 1 1 k = true := by decide
theorem test_hyp_timeout_one : (scripted (some 1) answersF1).rp.phase = .idle ∧ (scripted (some 1) answersF1).cfg.pollLimit = some 1 ∧
    ∀ k, k < 1 → busyAt (scripted (some 1) answersF1) 2 1 1 k = true := by decide
theorem test_hyp_keepsPolling : (scripted none answersF3).rp.phase = .idle ∧ (scripted none answersF3).cfg.pollLimit = none ∧
    ∀ k, k < 3 → busyAt (scripted none answersF3) 2 1 1 k = true := by decide

/-- Step 2 of program S5: a SAMPLE into a buffer of capacity 4 and element size 4. -/
def sampleState : State :=
  { withBuf (freshBuffer 4 4) with
    env := { EnvState.reset with
      producer := [.sample]
      sched := [.producer, .rp, .rp, .rp, .producer]
      answers := [0x00#8, 0x01#8, 0x02#8, 0x03#8, 0x04#8] } }

theorem test_hyp_sample : RbInv sampleState.cfg sampleState.rb ∧ sampleState.rb.initialized = true ∧
    sampleState.rp.phase = .idle ∧ sampleState.env.samplePut = none ∧
    sampleState.cfg.row sampleState.cfg.regScanResult = some ⟨0x03#8, .w4, .rw⟩ ∧
    sampleState.env.producer = [.sample] ∧ sampleState.env.sched = [.producer, .rp, .rp, .rp, .producer] ++ [] ∧
    deviceBytes sampleState.env 5 = [0x00#8, 0x01#8, 0x02#8, 0x03#8, 0x04#8] ∧
    elemOfValue sampleState.cfg (readValue [0x00#8, 0x01#8, 0x02#8, 0x03#8, 0x04#8] 4) 4 =
      [0x01#8, 0x02#8, 0x03#8, 0x04#8] ∧ sampleState.rb.elementSize = 4 ∧ sampleState.cfg.elemLayout = .wireOrder :=
  ⟨rbInv_fresh (k := 2) (by decide) (by decide) (by decide) rfl, by decide⟩
-- S5, step 2.
theorem test_sample : nextIs (Host.Core.run Sys2Proof.core 5 sampleState)
    (fun t => decide (t.rb = buf 4 4 1 0 [(0, 0x01#8), (1, 0x02#8), (2, 0x03#8), (3, 0x04#8)] ∧
      t.responses = [⟨.port .rp, .ok, .value 0x01020304#32⟩, ⟨.port .producer, .ok, .none⟩])) = true := by decide

/-- A WRITE_CHECKED presented on an idle engine. -/
def checkedState (reg : Handle) (answers : List Byte) : State :=
  { State.reset with
    env := { EnvState.reset with
      rp := [.writeChecked reg 0x5A#32], sched := [.rp, .rp, .rp, .rp, .rp, .rp, .rp, .rp], answers := answers } }

theorem test_hyp_writeChecked : (checkedState 0#8 []).rp.phase = .idle ∧ (checkedState 0#8 []).env.checkVerify = none ∧
    (checkedState 0#8 []).env.rp = [.writeChecked 0#8 0x5A#32] ∧
    (checkedState 0#8 []).env.sched = [.rp, .rp, .rp, .rp, .rp, .rp, .rp, .rp] ++ [] ∧
    (checkedState 7#8 []).cfg.row 7#8 = none ∧ (checkedState 0#8 []).cfg.row 0#8 = some ⟨0x01#8, .w1, .rw⟩ := by decide
-- V-RP23, V-RP24.
theorem test_writeChecked_fails : nextIs (Host.Core.run Sys2Proof.core 8 (checkedState 0#8 [0x00#8, 0x00#8, 0x00#8, 0x5B#8]))
    (fun t => decide (t.responses = [⟨.port .rp, .ok, .none⟩, ⟨.port .rp, .ok, .bit false⟩,
      ⟨.writeChecked, .unsuccessfulRegisterWrite, .none⟩])) = true := by decide
theorem test_writeChecked_badHandle : nextIs (step (checkedState 7#8 []))
    (fun t => decide (t.rp = RpState.reset ∧ t.responses.map (·.status) = [.invalidPointer, .invalidPointer] ∧
      t.env.checkVerify = none)) = true := by decide

end Sys2Proof.Machine.Tests
end

section
/-! SUPPORT. Scope of the block: which operation a step runs, and what an operation of RB leaves unchanged. -/

namespace Sys2Proof.Machine

/-! ### The word presented on the port served (R9, R71) -/

section
variable {s : State} {w : Nat} {i : Instr}

/-- A word of the port that carries it runs as its operation. -/
theorem issue_of_decode {p : Port} (hd : decode s.cfg s.rb.elementSize w = .instr i) (hp : i.port = p) :
    issue p w s = exec i s := by
  simp only [issue, hd, hp, if_true]

theorem serveConsumer_word {rest : List Nat} (hw : s.env.consumer = w :: rest) :
    serveConsumer s = issue .consumer w { s with env := { s.env with consumer := rest } } := by
  simp only [serveConsumer, hw]

/-- Agent P's word is taken only when none of its SAMPLEs is in progress (R107). -/
theorem serveProducer_word {rest : List ProducerReq} (hs : sampling s = false) (hv : s.env.samplePut = none)
    (hw : s.env.producer = .word w :: rest) :
    serveProducer s = issue .producer w { s with env := { s.env with producer := rest } } := by
  simp [serveProducer, hs, hv, hw]

/-- An RP word is taken only by an idle engine, between WRITE_CHECKEDs (R176, R144). -/
theorem serveRp_word {rest : List RpReq} (hi : rpBusy s.rp = false) (hv : s.env.checkVerify = none)
    (hw : s.env.rp = .word w :: rest) :
    serveRp s = issue .rp w { s with env := { s.env with rp := rest } } := by
  simp [serveRp, hi, hv, hw]

end

/-- Settles O7: each port's word reaches `issue` after the turn, which leaves what decoding reads as it was. -/
theorem stepRunsPresentedOperation : Obligations.StepRunsPresentedOperation := by
  intro s w i hd hturn
  have hd' : decode (afterTurn s).cfg (afterTurn s).rb.elementSize w = .instr i := by simpa using hd
  refine ⟨fun rest hp hw => ?_, fun rest hp hw hs hv => ?_, fun rest hp hw hidle hv => ?_⟩ <;>
    rw [step, hturn, hp, serve]
  · rw [serveConsumer_word (by simpa using hw)]
    exact issue_of_decode hd' hp
  · rw [serveProducer_word (by simpa using hs) (by simpa using hv) (by simpa using hw)]
    exact issue_of_decode hd' hp
  · have hbusy : rpBusy (afterTurn s).rp = false := (rpBusy_eq_false _).2 (by simpa using hidle)
    rw [serveRp_word hbusy (by simpa using hv) (by simpa using hw)]
    exact issue_of_decode hd' hp

/-! ### The frame of the RB operations (R1, R46) -/

/-- All an operation of RB does is to replace RB and to return one response on its own port. -/
theorem exec_rb_next {i : Instr} {s t : State} (hp : i.port ≠ .rp) (h : exec i s = .next t) :
    ∃ rb st res, t = (s.withRb rb).respond (.port i.port) st res := by
  cases i with
  | init capacity elementSize =>
    obtain ⟨-, ⟨-, rfl⟩ | ⟨-, -, rfl⟩ | ⟨-, -, -, -, rfl⟩ | ⟨-, -, -, -, rfl⟩⟩ := execInit_next h
    · exact ⟨s.rb, _, _, rfl⟩
    · exact ⟨s.rb, _, _, rfl⟩
    · exact ⟨s.rb, _, _, rfl⟩
    · exact ⟨_, _, _, rfl⟩
  | put element =>
    obtain ⟨-, rfl⟩ | ⟨-, -, -, rfl⟩ := execPut_next h
    · exact ⟨s.rb, _, _, rfl⟩
    · exact ⟨_, _, _, rfl⟩
  | get =>
    obtain ⟨-, rfl⟩ | ⟨-, -, rfl⟩ | ⟨-, -, e, -, rfl⟩ := execGet_next h
    · exact ⟨s.rb, _, _, rfl⟩
    · exact ⟨s.rb, _, _, rfl⟩
    · exact ⟨_, _, _, rfl⟩
  | getMany count =>
    obtain ⟨-, ⟨-, rfl⟩ | ⟨-, -, rfl⟩ | ⟨-, -, es, -, rfl⟩⟩ := execGetMany_next h
    · exact ⟨s.rb, _, _, rfl⟩
    · exact ⟨s.rb, _, _, rfl⟩
    · exact ⟨_, _, _, rfl⟩
  | isEmpty => exact ⟨s.rb, _, _, (Host.Outcome.next.inj h).symm⟩
  | isFull => exact ⟨s.rb, _, _, (Host.Outcome.next.inj h).symm⟩
  | destroy => exact ⟨_, _, _, (Host.Outcome.next.inj h).symm⟩
  | write | read | verify | flashRead | flashWrite => exact absurd rfl hp

/-- Settles O34: replacing RB and responding touch none of the three. -/
theorem rbOperationsLeaveRp : Obligations.RbOperationsLeaveRp := by
  intro i s t hp h
  obtain ⟨rb, st, res, rfl⟩ := exec_rb_next hp h
  simp

end Sys2Proof.Machine
end

section
/-! SUPPORT. What one step makes of RB and of the configuration: RB moves with its parameters kept, or is renewed by INIT
or DESTROY. -/

namespace Sys2Proof.Machine

/-! ### RP leaves RB and the configuration (R1, R178) -/

section
variable {s t : State}

theorem acceptRegOp_frame (s : State) (cl : Client) (op : RpOp) (reg : Handle) (d : Data) :
    (s.acceptRegOp cl op reg d).rb = s.rb ∧ (s.acceptRegOp cl op reg d).cfg = s.cfg := by
  obtain ⟨-, h⟩ | ⟨-, -, h⟩ | ⟨-, -, h⟩ := acceptRegOp_cases s cl op reg d <;> simp [h]

theorem acceptFlash_frame (s : State) (a : Data) : (s.acceptFlash a).rb = s.rb ∧ (s.acceptFlash a).cfg = s.cfg := by
  cases h : rpBusy s.rp with
  | true => simp [acceptFlash_busy h]
  | false => simp [acceptFlash_idle h]

theorem engineStep_frame (h : engineStep s = .next t) : t.rb = s.rb ∧ t.cfg = s.cfg := by
  cases hp : s.rp.phase <;> simp only [engineStep, hp] at h
  case idle | sel | desel | fSel | fDesel =>
    obtain rfl := Host.Outcome.next.inj h
    simp
  case xfer =>
    obtain ⟨row, tx, v, -, -, -, rfl⟩ := engineXfer_next h
    simp
  case fAddr | fMode | fData =>
    obtain ⟨row, -, rfl⟩ := withRow_eq_next.1 h
    simp
  case fPoll =>
    obtain ⟨row, -, ⟨-, rfl⟩ | ⟨-, -, rfl⟩ | ⟨-, -, rfl⟩⟩ := engineFPoll_next h <;> simp

/-- An operation of the RP port is an acceptance, so it leaves RB and the configuration. -/
theorem exec_rp_frame {i : Instr} (hp : i.port = .rp) (h : exec i s = .next t) : t.rb = s.rb ∧ t.cfg = s.cfg := by
  cases i with
  | write | read | verify => obtain rfl := Host.Outcome.next.inj h; exact acceptRegOp_frame ..
  | flashRead => obtain rfl := Host.Outcome.next.inj h; exact acceptFlash_frame ..
  | flashWrite => exact absurd h (by simp [exec, execFlashWrite])
  | init | put | get | getMany | isEmpty | isFull | destroy => simp [Instr.port] at hp

theorem exec_cfg {i : Instr} (h : exec i s = .next t) : t.cfg = s.cfg := by
  by_cases hp : i.port = .rp
  · exact (exec_rp_frame hp h).2
  · obtain ⟨rb, st, res, rfl⟩ := exec_rb_next hp h
    simp

end

/-! ### The moves of RB (R27) -/

/-- RB moves with its parameters kept: nothing changes, an element is stored at `head`, or `tail` passes `k` slots (only
readable ones, in a state of the invariant under `GETMANY_LIMIT = avail`). -/
inductive RbMove (c : Cfg) (rb : RbState) : RbState → Prop
  | keep : RbMove c rb rb
  | put {rb' : RbState} {e : Element} (hw : slotWrite rb rb.head e = .next rb') : RbMove c rb (advanceHead c rb')
  | take {k : Nat} (hi : rb.initialized = true)
      (hk : RbInv c rb → c.getManyLimit = .avail → k ≤ availCount c rb) : RbMove c rb (advanceTail c rb k)

/-- RB is made anew by the one of the two operations that do so: INIT with parameters that pass the checks of R100, or
DESTROY (R106). -/
inductive RbRenewal (c : Cfg) : Instr → RbState → Prop
  | init {k elementSize : Nat} (hk : k < c.capW) (h₁ : 1 ≤ elementSize) (h₂ : elementSize < 2 ^ c.eszW)
      (hf : exceedsStorage c (2 ^ k) elementSize = false) :
      RbRenewal c (.init (2 ^ k) elementSize) (freshBuffer (2 ^ k) elementSize)
  | destroy : RbRenewal c .destroy RbState.reset

/-- Everything an operation can make of RB. -/
theorem exec_rbMove {i : Instr} {s t : State} (h : exec i s = .next t) :
    RbMove s.cfg s.rb t.rb ∨ RbRenewal s.cfg i t.rb := by
  cases i with
  | init capacity elementSize =>
    obtain ⟨⟨hc, he⟩, ⟨-, rfl⟩ | ⟨-, -, rfl⟩ | ⟨-, -, -, -, rfl⟩ | ⟨-, hp, h0, hf, rfl⟩⟩ := execInit_next h
    · exact .inl .keep
    · exact .inl .keep
    · exact .inl .keep
    · obtain ⟨k, rfl⟩ := (isPowerOfTwo_iff _).1 hp
      exact .inr (.init ((Nat.pow_lt_pow_iff_right (by decide)).1 hc) (Nat.pos_of_ne_zero h0) he hf)
  | put element =>
    obtain ⟨-, rfl⟩ | ⟨hi, hh, hl, rfl⟩ := execPut_next h
    · exact .inl .keep
    · exact .inl (.put ((slotWrite_eq_next _ _ _).2 ⟨⟨hi, hh⟩, hl, rfl⟩))
  | get =>
    obtain ⟨-, rfl⟩ | ⟨-, -, rfl⟩ | ⟨hi, hne, e, -, rfl⟩ := execGet_next h
    · exact .inl .keep
    · exact .inl .keep
    · exact .inl (.take hi fun hinv _ => Nat.pos_of_ne_zero fun h0 => hne ((availCount_iff hinv hi).1.1 h0))
  | getMany count =>
    obtain ⟨-, ⟨-, rfl⟩ | ⟨-, -, rfl⟩ | ⟨hi, -, es, -, rfl⟩⟩ := execGetMany_next h
    · exact .inl .keep
    · exact .inl .keep
    · exact .inl (.take hi fun _ hl => by simp [getManyCount, hl])
  | isEmpty | isFull => obtain rfl := Host.Outcome.next.inj h; exact .inl .keep
  | destroy => obtain rfl := Host.Outcome.next.inj h; exact .inr .destroy
  | write | read | verify | flashRead | flashWrite =>
    rw [(exec_rp_frame rfl h).1]
    exact .inl .keep

theorem RbRenewal.operation {c : Cfg} {i : Instr} {rb : RbState} (h : RbRenewal c i rb) :
    (∃ capacity elementSize, i = .init capacity elementSize) ∨ i = .destroy := by
  cases h with
  | init => exact .inl ⟨_, _, rfl⟩
  | destroy => exact .inr rfl

/-- Everything a step can make of RB: a renewal is an operation decoded from the word presented on the consumer port. -/
theorem step_rbMove {s t : State} (h : step s = .next t) :
    RbMove s.cfg s.rb t.rb ∨ (nextTurn s = .consumer ∧ ∃ i w rest, s.env.consumer = w :: rest ∧
      decode s.cfg s.rb.elementSize w = .instr i ∧ RbRenewal s.cfg i t.rb) := by
  obtain ⟨u, hb, rfl | ⟨i, hturn, hword, hi⟩ | ⟨-, -, he⟩ | ⟨cl, op, reg, d, -, rfl⟩⟩ := step_cases h
  · rw [hb.rb]; exact .inl .keep
  · rw [← hb.cfg, ← hb.rb]
    obtain hm | hr := exec_rbMove hi
    · exact .inl hm
    · have hp : i.port = .consumer := by obtain ⟨_, _, rfl⟩ | rfl := hr.operation <;> rfl
      obtain ⟨w, rest, hw, hd⟩ := hword hp
      exact .inr ⟨hturn.trans hp, i, w, rest, hw, by rw [hb.cfg, hb.rb]; exact hd, hr⟩
  · rw [(engineStep_frame he).1, hb.rb]; exact .inl .keep
  · rw [(acceptRegOp_frame ..).1, hb.rb]; exact .inl .keep

theorem RbMove.parameters {c : Cfg} {rb rb' : RbState} (h : RbMove c rb rb') :
    rb'.initialized = rb.initialized ∧ rb'.capacity = rb.capacity ∧ rb'.elementSize = rb.elementSize := by
  cases h with
  | keep => exact ⟨rfl, rfl, rfl⟩
  | put hw =>
    obtain ⟨-, -, rfl⟩ := (slotWrite_eq_next _ _ _).1 hw
    exact ⟨rfl, rfl, rfl⟩
  | take => exact ⟨rfl, rfl, rfl⟩

/-- Settles O10: a move keeps the parameters, and a renewal is INIT or DESTROY. -/
theorem parametersChangeOnlyByInitAndDestroy : Obligations.ParametersChangeOnlyByInitAndDestroy := by
  refine ⟨fun i s t h => ?_, fun s t h => ?_⟩
  · obtain ⟨hinit, hdestroy, h⟩ | h := h
    · obtain hm | hr := exec_rbMove h
      · exact hm.parameters
      · obtain ⟨_, _, rfl⟩ | rfl := hr.operation
        · exact absurd rfl hinit
        · exact absurd rfl hdestroy
    · rw [(engineStep_frame h).1]
      exact ⟨rfl, rfl, rfl⟩
  · obtain hm | ⟨hturn, i, w, rest, hw, hd, hr⟩ := step_rbMove h
    · exact .inl hm.parameters
    · refine .inr ⟨hturn, w, rest, hw, ?_⟩
      obtain ⟨_, _, rfl⟩ | rfl := hr.operation
      · exact .inl ⟨_, _, hd⟩
      · exact .inr hd

/-- Settles O11: operations, engine steps and acceptances each keep the configuration. -/
theorem stepKeepsCfg : Obligations.StepKeepsCfg := by
  intro s t h
  obtain ⟨u, hb, rfl | ⟨i, -, -, hi⟩ | ⟨-, -, he⟩ | ⟨cl, op, reg, d, -, rfl⟩⟩ := step_cases h
  · exact hb.cfg
  · exact (exec_cfg hi).trans hb.cfg
  · exact (engineStep_frame he).2.trans hb.cfg
  · exact (acceptRegOp_frame ..).2.trans hb.cfg

end Sys2Proof.Machine
end

section
/-! SUPPORT. RB read as a FIFO (R14, R15, R51): the slots that hold a list, and what PUT, GET and GETMANY make of it. -/

namespace Sys2Proof.Machine

/-! ### A wrapped run of slots -/

/-- The slots from `t` on, wrapped at capacity, hold the elements of `q`. -/
def SlotsHold (rb : RbState) (t : Nat) (q : List Element) : Prop :=
  ∀ j (h : j < q.length), slotRead rb ((t + j) % rb.capacity) = .next q[j]

theorem holds_iff (c : Cfg) (rb : RbState) (q : List Element) :
    Holds c rb q ↔ q.length = availCount c rb ∧ SlotsHold rb rb.tail q := Iff.rfl

section
variable {rb : RbState} {t : Nat} {q : List Element}

theorem SlotsHold.take (h : SlotsHold rb t q) (k : Nat) : SlotsHold rb t (q.take k) := fun j hj => by
  rw [List.getElem_take]
  exact h j _

theorem SlotsHold.drop (h : SlotsHold rb t q) (k : Nat) : SlotsHold rb ((t + k) % rb.capacity) (q.drop k) :=
  fun j hj => by
    rw [Nat.mod_add_mod, Nat.add_assoc, List.getElem_drop]
    exact h (k + j) _

/-- A list that the slots from `t` hold, and one more element in the slot after it. -/
theorem SlotsHold.concat {e : Element} (h : SlotsHold rb t q)
    (he : slotRead rb ((t + q.length) % rb.capacity) = .next e) : SlotsHold rb t (q ++ [e]) := fun j hj => by
  rw [List.getElem_append]
  split_ifs with hlt
  · exact h j hlt
  · obtain rfl : j = q.length := by simp at hj; omega
    simpa using he

/-- The two contiguous copies of R51 read the wrapped run. -/
theorem runRead_eq_next {k : Nat} {es : List Element} (ht : t < rb.capacity) (hk : k ≤ rb.capacity) :
    runRead rb t k = .next es ↔ es.length = k ∧ SlotsHold rb t es := by
  have hlow : ∀ j, j < min k (rb.capacity - t) → (t + j) % rb.capacity = t + j :=
    fun j hj => Nat.mod_eq_of_lt (by omega)
  have hhigh : ∀ j, j < k - min k (rb.capacity - t) →
      (t + (min k (rb.capacity - t) + j)) % rb.capacity = 0 + j := fun j hj => by
    rw [add_mod_capacity ht (by omega), if_neg (by omega)]
    omega
  have hle : min k (rb.capacity - t) ≤ k := Nat.min_le_left ..
  simp only [runRead, andThen_eq_next, copyRun_eq_next, Host.Outcome.next.injEq]
  generalize min k (rb.capacity - t) = first at *
  constructor
  · rintro ⟨es₁, ⟨rfl, h₁⟩, es₂, ⟨h₂l, h₂⟩, rfl⟩
    refine ⟨by simp; omega, fun j hj => ?_⟩
    rw [List.getElem_append]
    split_ifs with hlt
    · rw [hlow j hlt, h₁ j hlt]
    · have hj' : j - es₁.length < es₂.length := by simp at hj; omega
      rw [← h₂ _ hj', ← hhigh _ (by omega), Nat.add_sub_cancel' (by omega)]
  · rintro ⟨hl, h⟩
    have htake : (es.take first).length = first := by simp; omega
    refine ⟨es.take first, ⟨htake, fun j hj => ?_⟩, es.drop first, ⟨by simp; omega, fun j hj => ?_⟩, by simp⟩
    · rw [← h.take first j hj, hlow j (by omega)]
    · have hj' : first + j < es.length := by simp at hj; omega
      rw [List.getElem_drop, ← h _ hj', hhigh j (by omega)]

end

/-! ### The readable elements -/

section
variable {c : Cfg} {rb : RbState} {q : List Element}

/-- The live range is written exactly when there is a queue that RB holds (R15). -/
theorem liveInv_iff_holds (hi : rb.initialized = true) : LiveInv c rb ↔ ∃ q, Holds c rb q := by
  constructor
  · intro h
    choose f hf using h hi
    exact ⟨List.ofFn fun j : Fin (availCount c rb) => f j j.isLt, by simp,
      fun j hj => by simpa using hf j (by simpa using hj)⟩
  · rintro ⟨q, hl, h⟩ - j hj
    exact ⟨q[j], h j (hl ▸ hj)⟩

/-- The slot `head` is not readable. -/
theorem readable_ne_head (h : RbInv c rb) (hi : rb.initialized = true) {j : Nat} (hj : j < availCount c rb) :
    (rb.tail + j) % rb.capacity ≠ rb.head := by
  have ha := availCount_lt h hi
  have ht := h.tail hi
  rw [← tail_add_avail h hi, add_mod_capacity ht (by omega), add_mod_capacity ht (by omega)]
  split_ifs <;> omega

/-- The element written to `head` follows the readable ones. -/
theorem slotsHold_slotWrite {rb' : RbState} {e : Element} (h : RbInv c rb) (hq : Holds c rb q)
    (hw : slotWrite rb rb.head e = .next rb') : SlotsHold rb' rb.tail (q ++ [e]) := by
  obtain ⟨hl, hslots⟩ := hq
  obtain ⟨hx, he, rfl⟩ := (slotWrite_eq_next _ _ _).1 hw
  refine SlotsHold.concat (fun j hj => ?_) ?_
  · rw [slotRead_written hx he, if_neg (readable_ne_head h hx.1 (hl ▸ hj))]
    exact hslots j hj
  · rw [slotRead_written hx he, if_pos (by rw [hl]; exact tail_add_avail h hx.1)]

/-- Moving the indices past the element written makes it readable, and drops the oldest of a full queue (R101). -/
theorem SlotsHold.advanceHead {e : Element} (hs : SlotsHold rb rb.tail (q ++ [e])) (hl : q.length = availCount c rb)
    (h : RbInv c rb) (hi : rb.initialized = true) : Holds c (advanceHead c rb) (fifoPut rb.capacity q e) := by
  have ha := availCount_lt h hi
  have hfull := (availCount_iff h hi).2
  rw [holds_iff, availCount_advanceHead h hi, advanceHead_tail h hi, fifoPut]
  by_cases hc : availCount c rb + 1 = rb.capacity
  · rw [if_pos hc, if_pos (hfull.1 hc), if_pos (by omega)]
    exact ⟨by simp [hl], hs.drop 1⟩
  · rw [if_neg hc, if_neg (mt hfull.2 hc), if_neg (by omega)]
    exact ⟨by simp [hl], hs⟩

/-- PUT appends its element, and drops the oldest of a full queue (R101). -/
theorem Holds.put {rb' : RbState} {e : Element} (hq : Holds c rb q) (h : RbInv c rb)
    (hw : slotWrite rb rb.head e = .next rb') : Holds c (advanceHead c rb') (fifoPut rb.capacity q e) := by
  have hs := slotsHold_slotWrite h hq hw
  have hinv := rbInv_slotWrite h hw
  obtain ⟨⟨hi, -⟩, -, rfl⟩ := (slotWrite_eq_next _ _ _).1 hw
  exact hs.advanceHead hq.1 hinv hi

/-- Passing `k` readable slots drops the oldest `k` elements (R102, R103). -/
theorem Holds.advanceTail (hq : Holds c rb q) (h : RbInv c rb) (hi : rb.initialized = true) {k : Nat}
    (hk : k ≤ availCount c rb) : Holds c (advanceTail c rb k) (q.drop k) := by
  rw [holds_iff, availCount_advanceTail h hi hk, advanceTail_tail h hi]
  exact ⟨by simp [hq.1], SlotsHold.drop hq.2 k⟩

/-- RunRead from `tail` gives the oldest `k` elements (R51). -/
theorem Holds.runRead (hq : Holds c rb q) (h : RbInv c rb) (hi : rb.initialized = true) {k : Nat}
    (hk : k ≤ availCount c rb) : runRead rb rb.tail k = .next (q.take k) := by
  have ha := availCount_lt h hi
  exact (runRead_eq_next (h.tail hi) (by omega)).2 ⟨by simp [hq.1, hk], SlotsHold.take hq.2 k⟩

/-- The oldest element stands at `tail`. -/
theorem Holds.slotRead_tail {x : Element} {r : List Element} (hq : Holds c rb (x :: r)) (ht : rb.tail < rb.capacity) :
    slotRead rb rb.tail = .next x := by
  have := hq.2 0 (by simp)
  rwa [Nat.add_zero, Nat.mod_eq_of_lt ht] at this

theorem Holds.isEmptyFlag (hq : Holds c rb q) (h : RbInv c rb) (hi : rb.initialized = true) :
    isEmptyFlag rb = decide (q = []) := by
  rw [Machine.isEmptyFlag, decide_eq_decide, ← (availCount_iff h hi).1, ← hq.1, List.length_eq_zero_iff]

theorem Holds.isFullFlag (hq : Holds c rb q) (h : RbInv c rb) (hi : rb.initialized = true) :
    isFullFlag c rb = decide (q.length + 1 = rb.capacity) := by
  rw [isFullFlag_eq h hi, decide_eq_decide, ← (availCount_iff h hi).2, ← hq.1]

end
end Sys2Proof.Machine
end

section
/-! SUPPORT. The operations of RB as operations of a FIFO, and the live range along a step (R15, R101 to R105). -/

namespace Sys2Proof.Machine

/-! ### Number of readable elements -/

/-- Settles O26: `availCount_iff` in terms of the flags; both at once would make capacity 1. -/
theorem availCountsReadable : Obligations.AvailCountsReadable := by
  intro c rb h hi
  have hempty : availCount c rb = 0 ↔ isEmptyFlag rb = true := by
    rw [(availCount_iff h hi).1, isEmptyFlag, decide_eq_true_eq]
  have hfull : availCount c rb + 1 = rb.capacity ↔ isFullFlag c rb = true := by
    rw [(availCount_iff h hi).2, isFullFlag_eq h hi, decide_eq_true_eq]
  refine ⟨availCount_lt h hi, hempty, hfull, ?_⟩
  rintro hc ⟨he, hf⟩
  have := hempty.2 he
  have := hfull.2 hf
  omega

/-! ### What the operations of an initialized buffer answer -/

section
variable {s : State}

theorem exec_put_of_slotWrite {e : Element} {rb : RbState} (hi : s.rb.initialized = true)
    (hw : slotWrite s.rb s.rb.head e = .next rb) :
    exec (.put e) s = .next ((s.withRb (advanceHead s.cfg rb)).respond (.port .producer) .ok .none) := by
  simp [exec, execPut, hi, hw]

variable {q : List Element} (h : RbInv s.cfg s.rb) (hi : s.rb.initialized = true) (hq : Holds s.cfg s.rb q)
include h hi

theorem exec_put_of_length {e : Element} (hl : e.length = s.rb.elementSize) :
    ∃ rb, slotWrite s.rb s.rb.head e = .next rb ∧
      exec (.put e) s = .next ((s.withRb (advanceHead s.cfg rb)).respond (.port .producer) .ok .none) := by
  have hw := (slotWrite_eq_next s.rb s.rb.head e).2 ⟨⟨hi, h.head hi⟩, hl, rfl⟩
  exact ⟨_, hw, exec_put_of_slotWrite hi hw⟩

theorem exec_get_of_holds_nil (hq : Holds s.cfg s.rb []) :
    exec .get s = .next (s.respond (.port .consumer) .getOnEmpty .none) := by
  simp [exec, execGet, hi, hq.isEmptyFlag h hi]

theorem exec_get_of_holds_cons {x : Element} {r : List Element} (hq : Holds s.cfg s.rb (x :: r)) :
    exec .get s = .next ((s.withRb (advanceTail s.cfg s.rb 1)).respond (.port .consumer) .ok (.element x)) := by
  simp [exec, execGet, hi, hq.isEmptyFlag h hi, hq.slotRead_tail (h.tail hi)]

theorem advanceTail_zero : advanceTail s.cfg s.rb 0 = s.rb := by
  refine RbState.ext rfl rfl rfl rfl ?_ rfl
  rw [advanceTail_tail h hi, Nat.add_zero, Nat.mod_eq_of_lt (h.tail hi)]

include hq

theorem exec_getMany_of_holds {n : Nat} (hn : n < 2 ^ s.cfg.capW) (hlim : s.cfg.getManyLimit = .avail) :
    exec (.getMany n) s = .next ((s.withRb (advanceTail s.cfg s.rb (min n q.length))).respond (.port .consumer) .ok
      (.many (min n q.length) (q.take n))) := by
  have hcount : getManyCount s n = min n q.length := by simp [getManyCount, hlim, hq.1]
  have hrun := hq.runRead h hi (k := min n q.length) (by rw [hq.1]; exact Nat.min_le_right ..)
  rw [← List.take_eq_take_min] at hrun
  by_cases h0 : n = 0
  · subst h0
    simp [exec, execGetMany, hi, advanceTail_zero h hi, State.withRb]
  · simp [exec, execGetMany, Nat.not_le.2 hn, hi, h0, hcount, hrun]

end

/-- Settles O29: each operation's answer in a state that holds a queue, and the queue its RB holds next. -/
theorem rbRefinesOverwritingFifo : Obligations.RbRefinesOverwritingFifo := by
  intro s q h hi hq
  refine ⟨fun e hl => ?_, ?_, ?_, fun n hn hlim => ?_, ?_, ?_⟩
  · obtain ⟨rb, hw, hexec⟩ := exec_put_of_length h hi hl
    exact ⟨_, hexec, hq.put h hw⟩
  · rintro rfl
    exact exec_get_of_holds_nil h hi hq
  · rintro x r rfl
    exact ⟨_, exec_get_of_holds_cons h hi hq, hq.advanceTail h hi (k := 1) (by rw [← hq.1]; simp), rfl⟩
  · refine ⟨_, exec_getMany_of_holds h hi hq hn hlim, ?_, rfl⟩
    rw [List.drop_eq_drop_min]
    exact hq.advanceTail h hi (by rw [hq.1]; exact Nat.min_le_right ..)
  · rw [← hq.isEmptyFlag h hi]
    rfl
  · rw [← hq.isFullFlag h hi]
    rfl

/-! ### The invariants of RB along a step -/

section
variable {c : Cfg} {rb rb' : RbState} {i : Instr}

theorem RbMove.rbInv (hm : RbMove c rb rb') (h : RbInv c rb) : RbInv c rb' := by
  cases hm with
  | keep => exact h
  | put hw =>
    have h' := rbInv_slotWrite h hw
    obtain ⟨⟨hi, -⟩, -, rfl⟩ := (slotWrite_eq_next _ _ _).1 hw
    exact rbInv_advanceHead h' hi
  | take hi => exact rbInv_advanceTail h hi _

theorem RbRenewal.rbInv (hr : RbRenewal c i rb') : RbInv c rb' := by
  cases hr with
  | init hk h₁ h₂ hf => exact rbInv_fresh hk h₁ h₂ hf
  | destroy => exact rbInv_reset c

theorem RbMove.liveInv (hm : RbMove c rb rb') (h : RbInv c rb) (hlim : c.getManyLimit = .avail) (hl : LiveInv c rb) :
    LiveInv c rb' := by
  intro hi'
  have hi : rb.initialized = true := hm.parameters.1 ▸ hi'
  obtain ⟨q, hq⟩ := (liveInv_iff_holds hi).1 hl
  refine (liveInv_iff_holds hi').2 ?_ hi'
  cases hm with
  | keep => exact ⟨q, hq⟩
  | put hw => exact ⟨_, hq.put h hw⟩
  | take _ hk => exact ⟨_, hq.advanceTail h hi (hk h hlim)⟩

theorem liveInv_reset (c : Cfg) : LiveInv c RbState.reset := fun hi => absurd hi (by decide)

/-- A renewed RB has no readable slot. -/
theorem RbRenewal.liveInv (hr : RbRenewal c i rb') : LiveInv c rb' := by
  have h := hr.rbInv
  cases hr with
  | init =>
    intro hi j hj
    rw [(availCount_iff h hi).1.2 rfl] at hj
    exact absurd hj (Nat.not_lt_zero j)
  | destroy => exact liveInv_reset c

end

theorem step_rbInv {s t : State} (h : RbInv s.cfg s.rb) (hs : step s = .next t) : RbInv t.cfg t.rb := by
  rw [stepKeepsCfg s t hs]
  obtain hm | ⟨-, i, w, rest, -, -, hr⟩ := step_rbMove hs
  · exact hm.rbInv h
  · exact hr.rbInv

/-- Settles O16: a move of RB keeps a queue of readable elements, a renewal leaves none readable. -/
theorem stepKeepsLiveRange : Obligations.StepKeepsLiveRange := by
  intro s t h hlim hl hs
  rw [stepKeepsCfg s t hs]
  obtain hm | ⟨-, i, w, rest, -, -, hr⟩ := step_rbMove hs
  · exact hm.liveInv h.rb hlim hl
  · exact hr.liveInv

end Sys2Proof.Machine
end

section
/-! SUPPORT. The invariant of RP along a step: the bus discipline (R53, R230) and the phase table (R175). -/

namespace Sys2Proof.Machine

/-! ### The bus history with one more event -/

@[simp] theorem busLevel_append_cs (hist : List BusEvent) (l : BitVec 1) :
    busLevel (hist ++ [.cs l]) = (busLevel hist).bind fun l' => if l = l' then none else some l :=
  busLevelFrom_append ..

@[simp] theorem busLevel_append_xfer (hist : List BusEvent) (tx rx : List Byte) :
    busLevel (hist ++ [.xfer tx rx]) = (busLevel hist).bind fun l =>
      if l = 0#1 ∧ tx ≠ [] ∧ rx.length = tx.length then some l else none :=
  busLevelFrom_append ..

/-! ### The constraints of R7 that the engine rests on -/

theorem pollLimit_not_reached_at_zero {c : Cfg} (h : c.wf = true) : pollLimitReached c 0 = false := by
  have hok : c.pollLimitOk = true := by
    rw [Cfg.wf, Bool.and_eq_true] at h
    exact h.2
  cases hl : c.pollLimit with
  | none => simp [pollLimitReached, hl]
  | some limit =>
    simp only [Cfg.pollLimitOk, hl, decide_eq_true_eq] at hok
    simp only [pollLimitReached, hl, decide_eq_false_iff_not]
    omega

/-- The handles the engine takes from the configuration have rows (R7). -/
theorem wf_rows {c : Cfg} (h : c.wf = true) :
    (∃ row, c.row c.regFlashAddr = some row) ∧ (∃ row, c.row c.regFlashMode = some row) ∧
      (∃ row, c.row c.regStatus = some row) ∧ ∃ row, c.row c.regFlashDataOut = some row := by
  simp only [Cfg.wf, Bool.and_eq_true, validHandle_iff] at h
  tauto

/-! ### The engine -/

section
variable {s t : State}

theorem rpInv_reset (c : Cfg) : RpInv c RpState.reset := by
  constructor <;> simp [RpState.reset, phaseLevel, flashPhase, busLevel, busLevelFrom]

/-- The bus stands at the level of the phase. -/
theorem RpInv.bus_at {c : Cfg} {rp : RpState} (h : RpInv c rp) : busLevel rp.history = some (phaseLevel rp.phase) :=
  h.level ▸ h.bus

theorem rpInv_acceptRegOp (h : RpInv s.cfg s.rp) {cl : Client} {op : RpOp} {reg : Handle} {d : Data}
    (hop : op ≠ .flashRead) : RpInv (s.acceptRegOp cl op reg d).cfg (s.acceptRegOp cl op reg d).rp := by
  obtain ⟨-, he⟩ | ⟨-, -, he⟩ | ⟨hidle, hv, he⟩ := acceptRegOp_cases s cl op reg d <;> rw [he]
  · exact h
  · simpa using h
  · have hp := (rpBusy_eq_false _).1 hidle
    have hbus := h.bus_at
    have hlevel := h.level
    rw [hp] at hbus hlevel
    constructor <;> simp [flashPhase, hop, hv, hbus, hlevel, phaseLevel]

theorem rpInv_acceptFlash (h : RpInv s.cfg s.rp) (a : Data) : RpInv (s.acceptFlash a).cfg (s.acceptFlash a).rp := by
  cases hb : rpBusy s.rp with
  | true => rw [acceptFlash_busy hb]; exact h
  | false =>
    have hp := (rpBusy_eq_false _).1 hb
    have hbus := h.bus_at
    have hlevel := h.level
    rw [hp] at hbus hlevel
    rw [acceptFlash_idle hb]
    constructor <;> simp [flashPhase, hbus, hlevel, phaseLevel]

/-- A row of the phase table adds one event that takes the bus to the level of the next phase, and leaves in the latches
what the clauses of the next phase ask for (R175). -/
theorem rpInv_engineStep (hc : s.cfg.wf = true) (h : RpInv s.cfg s.rp) (hs : engineStep s = .next t) :
    RpInv t.cfg t.rp := by
  have hbus := h.bus_at
  have hlevel := h.level
  have hop := h.op
  have hclient := h.flashClient
  have hpoll := h.poll
  cases hp : s.rp.phase <;> simp only [engineStep, hp] at hs
  case idle => exact Host.Outcome.next.inj hs ▸ h
  case sel =>
    obtain rfl := Host.Outcome.next.inj hs
    have hreg := h.handle (.inl hp)
    constructor <;> simp_all [phaseLevel, flashPhase]
  case desel | fSel | fDesel =>
    obtain rfl := Host.Outcome.next.inj hs
    constructor <;> simp_all [phaseLevel, flashPhase]
  case xfer =>
    obtain ⟨row, tx, v, -, htx, -, rfl⟩ := engineXfer_next hs
    constructor <;> simp_all [phaseLevel, flashPhase]
  case fMode =>
    obtain ⟨row, -, rfl⟩ := withRow_eq_next.1 hs
    have hzero := pollLimit_not_reached_at_zero hc
    constructor <;> simp_all [phaseLevel, flashPhase]
  case fAddr | fData =>
    obtain ⟨row, -, rfl⟩ := withRow_eq_next.1 hs
    constructor <;> simp_all [phaseLevel, flashPhase]
  case fPoll =>
    obtain ⟨row, -, ⟨-, rfl⟩ | ⟨-, hlim, rfl⟩ | ⟨-, -, rfl⟩⟩ := engineFPoll_next hs <;>
      constructor <;> simp_all [phaseLevel, flashPhase]

/-- Every handle the engine uses has a row: those of the configuration, and the one that passed the acceptance check. -/
theorem engineStep_ne_fault (hc : s.cfg.wf = true) (h : RpInv s.cfg s.rp) (r : Fault) : engineStep s ≠ .fault r := by
  intro hs
  obtain ⟨⟨rowA, hA⟩, ⟨rowM, hM⟩, ⟨rowS, hS⟩, ⟨rowD, hD⟩⟩ := wf_rows hc
  cases hp : s.rp.phase <;> simp only [engineStep, hp] at hs
  case idle | sel | desel | fSel | fDesel => exact absurd hs (by simp [engineSel, engineDesel, engineFSel])
  case xfer =>
    obtain ⟨row, hrow⟩ := (validHandle_iff _ _).1 (h.handle (.inr hp))
    simp [(withRow_eq_fault hs).2] at hrow
  case fAddr => simp [(withRow_eq_fault hs).2] at hA
  case fMode => simp [(withRow_eq_fault hs).2] at hM
  case fPoll => simp [(withRow_eq_fault hs).2] at hS
  case fData => simp [(withRow_eq_fault hs).2] at hD

/-- An operation keeps the invariant of RP: on the RP port it is an acceptance, elsewhere it leaves RP. -/
theorem rpInv_exec {i : Instr} (h : RpInv s.cfg s.rp) (hs : exec i s = .next t) : RpInv t.cfg t.rp := by
  by_cases hp : i.port = .rp
  · cases i with
    | write | read | verify => exact Host.Outcome.next.inj hs ▸ rpInv_acceptRegOp h (by decide)
    | flashRead => exact Host.Outcome.next.inj hs ▸ rpInv_acceptFlash h _
    | flashWrite => exact absurd hs (by simp [exec, execFlashWrite])
    | init | put | get | getMany | isEmpty | isFull | destroy => simp [Instr.port] at hp
  · obtain ⟨rb, st, res, rfl⟩ := exec_rb_next hp hs
    exact h

end

end Sys2Proof.Machine
end

section
/-! SUPPORT. The invariant of the machine at reset and along a step, and what it excludes (R17, R58, R140). -/

namespace Sys2Proof.Machine

/-! ### The invariant of the machine -/

theorem step_rpInv {s t : State} (hc : s.cfg.wf = true) (h : RpInv s.cfg s.rp) (hs : step s = .next t) :
    RpInv t.cfg t.rp := by
  obtain ⟨u, hb, hcase⟩ := step_cases hs
  rw [← hb.cfg] at hc
  rw [← hb.cfg, ← hb.rp] at h
  obtain rfl | ⟨i, -, -, hi⟩ | ⟨-, -, he⟩ | ⟨cl, op, reg, d, hop, rfl⟩ := hcase
  · exact h
  · exact rpInv_exec h hi
  · exact rpInv_engineStep hc h he
  · exact rpInv_acceptRegOp h hop

/-- Settles O15: the configuration is kept, and each unit keeps its own invariant. -/
theorem stepKeepsInv : Obligations.StepKeepsInv := by
  intro s t h hs
  refine ⟨?_, step_rbInv h.rb hs, step_rpInv h.cfg h.rp hs⟩
  rw [stepKeepsCfg s t hs]
  exact h.cfg

/-- Settles O13: the definitions of the reset state. -/
theorem resetHasSpecValues : Obligations.ResetHasSpecValues :=
  ⟨rfl, fun _ => ⟨rfl, rfl, rfl, rfl, rfl, rfl, rfl, rfl, rfl⟩⟩

/-- Settles O14: each unit satisfies its invariant at reset. -/
theorem resetSatisfiesInv : Obligations.ResetSatisfiesInv :=
  fun c hc => ⟨⟨hc, rbInv_reset c, rpInv_reset c⟩, liveInv_reset c⟩

/-! ### No fault (R17, R58, R140) -/

/-- A slot index below capacity is in the storage. -/
theorem slotWrite_ne_fault {rb : RbState} {i : Nat} (hi : rb.initialized = true) (hlt : i < rb.capacity) (e : Element)
    (r : Fault) : slotWrite rb i e ≠ .fault r := by
  rw [slotWrite, if_pos (by simp [slotExists, hi, hlt])]
  split_ifs <;> simp

/-- Only the three operations that use a slot can fault, and only on an initialized buffer. -/
theorem exec_eq_fault {i : Instr} {s : State} {r : Fault} (hs : exec i s = .fault r) :
    s.rb.initialized = true ∧
      ((∃ e, i = .put e) ∨ i = .get ∨ ∃ n, i = .getMany n ∧ n < 2 ^ s.cfg.capW) := by
  cases i with
  | put e =>
    simp only [exec, execPut] at hs
    split_ifs at hs with hi
    exact ⟨hi, .inl ⟨e, rfl⟩⟩
  | get =>
    simp only [exec, execGet] at hs
    split_ifs at hs with hi
    exact ⟨hi, .inr (.inl rfl)⟩
  | getMany n =>
    simp only [exec, execGetMany] at hs
    split_ifs at hs with hn hi
    exact ⟨hi, .inr (.inr ⟨n, rfl, Nat.lt_of_not_le hn⟩)⟩
  | init =>
    simp only [exec, execInit] at hs
    split_ifs at hs
  | isEmpty | isFull | destroy | write | read | verify | flashRead | flashWrite => cases hs

/-- PUT's slot is in the storage, and GET and GETMANY read only the queue that RB holds. -/
theorem exec_ne_fault {s : State} (h : RbInv s.cfg s.rb) (hl : LiveInv s.cfg s.rb) (hlim : s.cfg.getManyLimit = .avail)
    (i : Instr) (r : Fault) : exec i s ≠ .fault r := by
  intro hs
  obtain ⟨hi, hcase⟩ := exec_eq_fault hs
  obtain ⟨q, hq⟩ := (liveInv_iff_holds hi).1 hl
  obtain ⟨e, rfl⟩ | rfl | ⟨n, rfl, hn⟩ := hcase
  · simp [exec, execPut, hi, andThen_eq_fault, slotWrite_ne_fault hi (h.head hi)] at hs
  · cases q with
    | nil => simp [exec_get_of_holds_nil h hi hq] at hs
    | cons x q => simp [exec_get_of_holds_cons h hi hq] at hs
  · simp [exec_getMany_of_holds h hi hq hn hlim] at hs

/-- A step faults only in an operation or in a phase of the engine. -/
theorem step_eq_fault {s : State} {r : Fault} (h : step s = .fault r) :
    ∃ u, SameBlock s u ∧ ((∃ i, exec i u = .fault r) ∨ engineStep u = .fault r) := by
  have hb := afterTurn_sameBlock s
  simp only [step] at h
  generalize afterTurn s = u at h hb
  have henv : ∀ env : EnvState, SameBlock s { u with env := env } := fun _ => ⟨hb.cfg, hb.rb, hb.rp, hb.responses⟩
  cases hp : nextTurn s <;> simp only [hp, serve] at h
  case producer =>
    simp only [serveProducer] at h
    split at h
    · cases h
    · split at h
      · exact ⟨_, henv _, .inl ⟨.put _, h⟩⟩
      · split at h
        · cases h
        · obtain ⟨i, -, hi⟩ := issue_eq_fault h
          exact ⟨_, henv _, .inl ⟨i, hi⟩⟩
        · split at h <;> cases h
  case consumer =>
    simp only [serveConsumer] at h
    split at h
    · cases h
    · obtain ⟨i, -, hi⟩ := issue_eq_fault h
      exact ⟨_, henv _, .inl ⟨i, hi⟩⟩
  case rp =>
    simp only [serveRp] at h
    split at h
    · exact ⟨u, hb, .inr h⟩
    · split at h
      · cases h
      · split at h
        · cases h
        · obtain ⟨i, -, hi⟩ := issue_eq_fault h
          exact ⟨_, henv _, .inl ⟨i, hi⟩⟩
        · cases h

/-- Settles O17: neither an operation nor the engine faults in a state of the invariants. -/
theorem noStepFaults : Obligations.NoStepFaults := by
  intro s r hinv hlim hl hs
  obtain ⟨u, hb, hu⟩ := step_eq_fault hs
  obtain ⟨hc, hrb, hrp⟩ := hinv
  rw [← hb.cfg] at hc hlim
  rw [← hb.cfg, ← hb.rb] at hrb hl
  rw [← hb.cfg, ← hb.rp] at hrp
  obtain ⟨i, hi⟩ | he := hu
  · exact exec_ne_fault hrb hl hlim i r hi
  · exact engineStep_ne_fault hc hrp r he

end Sys2Proof.Machine
end

section
/-! SUPPORT. Which port is served next (R47, R56), and the logs along a step (R57, R79). -/

namespace Sys2Proof.Machine

/-! ### The turn (R56) -/

section
variable {s : State} {p : Port}

theorem nextTurn_of_sched {ps : List Port} (h : s.env.sched = p :: ps) : nextTurn s = p := by
  simp [nextTurn, h]

theorem afterTurn_of_sched {ps : List Port} (h : s.env.sched = p :: ps) :
    afterTurn s = { s with env := { s.env with sched := ps } } := by
  simp [afterTurn, h]

theorem nextTurn_of_only_ready (h : s.env.sched = []) (hr : readyPorts s = [p]) : nextTurn s = p := by
  simp [nextTurn, h, hr]

theorem afterTurn_of_only_ready (h : s.env.sched = []) (hr : readyPorts s = [p]) : afterTurn s = s := by
  simp [afterTurn, h, hr]

end

/-- Settles O6: the schedule's first port, or without a schedule the only ready one. -/
theorem turnFollowsSchedule : Obligations.TurnFollowsSchedule := fun _ _ _ =>
  ⟨fun h => ⟨nextTurn_of_sched h, afterTurn_of_sched h⟩,
    fun h hr => ⟨nextTurn_of_only_ready h hr, afterTurn_of_only_ready h hr⟩⟩

/-! ### The logs only grow (R57, R79) -/

/-- From `s` to `t` the bus history gains at most one event, and the responses gain some at their end. -/
structure LogsGrow (s t : State) : Prop where
  history : t.rp.history = s.rp.history ∨ ∃ e, t.rp.history = s.rp.history ++ [e]
  responses : s.responses <+: t.responses

section
variable {s t : State}

theorem LogsGrow.refl (s : State) : LogsGrow s s := ⟨.inl rfl, List.prefix_rfl⟩

theorem LogsGrow.of_sameBlock {u : State} (hb : SameBlock s u) (h : LogsGrow u t) : LogsGrow s t :=
  ⟨by rw [← hb.rp]; exact h.history, by rw [← hb.responses]; exact h.responses⟩

/-- Waking a pseudo-operation can return the response of WRITE_CHECKED; it takes none back. -/
theorem responses_prefix_wake (s : State) (cl : Client) (st : Status) (res : Result) :
    s.responses <+: (s.wake cl st res).responses := by
  cases cl with
  | port => exact List.prefix_rfl
  | sample => cases res <;> exact List.prefix_rfl
  | checkWrite =>
    simp only [State.wake]
    split_ifs
    · exact List.prefix_rfl
    · exact List.prefix_append ..
  | checkVerify => exact List.prefix_append ..

theorem responses_prefix_deliver (s : State) (cl : Client) (st : Status) (res : Result) :
    s.responses <+: (s.deliver cl st res).responses :=
  (List.prefix_append ..).trans (responses_prefix_wake (s.respond (.port .rp) st res) cl st res)

/-- Accepting an operation, or refusing its handle, performs no bus event (R140). -/
theorem logsGrow_acceptRegOp (s : State) (cl : Client) (op : RpOp) (reg : Handle) (d : Data) :
    LogsGrow s (s.acceptRegOp cl op reg d) := by
  obtain ⟨-, h⟩ | ⟨-, -, h⟩ | ⟨-, -, h⟩ := acceptRegOp_cases s cl op reg d <;> rw [h]
  · exact .refl s
  · exact ⟨.inl (by simp), responses_prefix_deliver ..⟩
  · exact ⟨.inl rfl, List.prefix_rfl⟩

theorem logsGrow_acceptFlash (s : State) (a : Data) : LogsGrow s (s.acceptFlash a) := by
  cases h : rpBusy s.rp with
  | true => rw [acceptFlash_busy h]; exact .refl s
  | false => rw [acceptFlash_idle h]; exact ⟨.inl rfl, List.prefix_rfl⟩

/-- A row of the phase table performs one bus event, and only the rows that release chip-select respond (R175). -/
theorem logsGrow_engineStep (h : engineStep s = .next t) : LogsGrow s t := by
  cases hp : s.rp.phase <;> simp only [engineStep, hp] at h
  case idle =>
    obtain rfl := Host.Outcome.next.inj h
    exact .refl s
  case sel | fSel =>
    obtain rfl := Host.Outcome.next.inj h
    exact ⟨.inr ⟨_, rfl⟩, List.prefix_rfl⟩
  case desel | fDesel =>
    obtain rfl := Host.Outcome.next.inj h
    exact ⟨.inr ⟨.cs 1#1, by simp⟩, responses_prefix_deliver ((s.busCs 1#1).setPhase .idle) ..⟩
  case xfer =>
    obtain ⟨row, tx, v, -, -, -, rfl⟩ := engineXfer_next h
    exact ⟨.inr ⟨_, rfl⟩, List.prefix_rfl⟩
  case fAddr | fMode | fData =>
    obtain ⟨row, -, rfl⟩ := withRow_eq_next.1 h
    exact ⟨.inr ⟨_, rfl⟩, List.prefix_rfl⟩
  case fPoll =>
    obtain ⟨row, -, ⟨-, rfl⟩ | ⟨-, -, rfl⟩ | ⟨-, -, rfl⟩⟩ := engineFPoll_next h <;>
      exact ⟨.inr ⟨_, rfl⟩, List.prefix_rfl⟩

/-- No operation performs a bus event: on the RP port it is an acceptance, elsewhere it leaves RP. -/
theorem logsGrow_exec {i : Instr} (h : exec i s = .next t) : LogsGrow s t := by
  by_cases hp : i.port = .rp
  · cases i with
    | write | read | verify => exact Host.Outcome.next.inj h ▸ logsGrow_acceptRegOp ..
    | flashRead => exact Host.Outcome.next.inj h ▸ logsGrow_acceptFlash ..
    | flashWrite => exact absurd h (by simp [exec, execFlashWrite])
    | init | put | get | getMany | isEmpty | isFull | destroy => simp [Instr.port] at hp
  · obtain ⟨rb, st, res, rfl⟩ := exec_rb_next hp h
    exact ⟨.inl rfl, List.prefix_append ..⟩

theorem logsGrow_step (h : step s = .next t) : LogsGrow s t := by
  obtain ⟨u, hb, rfl | ⟨i, -, -, hi⟩ | ⟨-, -, he⟩ | ⟨cl, op, reg, d, -, rfl⟩⟩ := step_cases h
  · exact (LogsGrow.refl _).of_sameBlock hb
  · exact (logsGrow_exec hi).of_sameBlock hb
  · exact (logsGrow_engineStep he).of_sameBlock hb
  · exact (logsGrow_acceptRegOp ..).of_sameBlock hb

end

/-- Settles O12: the two logs of `LogsGrow`. -/
theorem stepExtendsHistoryAndResponses : Obligations.StepExtendsHistoryAndResponses := by
  intro s t h
  obtain ⟨hhist, rs, hrs⟩ := logsGrow_step h
  exact ⟨hhist, rs, hrs.symm⟩

end Sys2Proof.Machine
end

section
/-! SUPPORT. Slot storage as the operations use it: an element of a wrong length, and RunRead's two copies (R41, R51). -/

namespace Sys2Proof.Machine

/-- A slot of the storage takes no element of another length (R41, U16). -/
theorem slotWrite_of_length_ne {rb : RbState} {i : Nat} {e : Element} (hi : rb.initialized = true) (hlt : i < rb.capacity)
    (hl : e.length ≠ rb.elementSize) : slotWrite rb i e = .refused .elementLength := by
  rw [slotWrite, if_pos (by simp [slotExists, hi, hlt]), if_neg hl]

/-- Settles O20: `head` is a slot of the storage, so the length alone decides. -/
theorem putOfWrongLengthIsRefused : Obligations.PutOfWrongLengthIsRefused := by
  intro s e h hi hl
  have hw := slotWrite_of_length_ne hi (h.head hi) hl
  simp [exec, execPut, hi, hw]

/-- Settles O27: `runRead_eq_next`, which needs of the invariant no more than `t` and `k` in their range. -/
theorem runReadIsWrappedSlotReads : Obligations.RunReadIsWrappedSlotReads :=
  fun _ _ _ _ _ _ _ ht hk => runRead_eq_next ht hk

end Sys2Proof.Machine
end

section
/-! SUPPORT. Command words as operations (R71, R72): which words decode to which operation, and which opcodes are
reserved (R78). -/

namespace Sys2Proof

/-! ### Fields above the opcode -/

/-- A field above the opcode, counted from the word's bit 4. -/
theorem bitField_add_four (w lo n : Nat) : bitField w (lo + 4) n = bitField (w >>> 4) lo n := by
  rw [bitField, Nat.add_comm, Nat.shiftRight_add, bitField]

theorem bitField_lt (x lo n : Nat) : bitField x lo n < 2 ^ n := Nat.mod_lt _ (Nat.two_pow_pos n)

/-- Two adjacent fields from bit 0 on are the low bits. -/
theorem bitField_append (x m n : Nat) : bitField x 0 m + 2 ^ m * bitField x m n = x % 2 ^ (m + n) := by
  rw [bitField, bitField, Nat.shiftRight_zero, Nat.shiftRight_eq_div_pow, Nat.pow_add, Nat.mod_mul]

theorem toNat_ofNat_bitField (x lo n : Nat) : (BitVec.ofNat n (bitField x lo n)).toNat = bitField x lo n := by
  rw [BitVec.toNat_ofNat, Nat.mod_eq_of_lt (bitField_lt x lo n)]

/-- The low bits of a word are its opcode field and, above it, the low bits of what stands there. -/
theorem mod_two_pow_add_four (w n : Nat) : w % 2 ^ (n + 4) = bitField w 0 4 + 2 ^ 4 * (w >>> 4 % 2 ^ n) := by
  rw [Nat.add_comm n, ← bitField_append]; rfl

/-! ### Decoding -/

/-- The operands of an operation are the fields of `x`, the number above the opcode (R72). -/
def OperandsFrom (c : Cfg) (es x : Nat) : Instr → Prop
  | .init capacity elementSize => capacity = bitField x 0 c.capW ∧ elementSize = bitField x c.capW c.eszW
  | .put element => element = bytesOfNat es x
  | .getMany count => count = bitField x 0 c.capW
  | .write reg data => reg.toNat = bitField x 0 8 ∧ data.toNat = bitField x 8 32
  | .read reg => reg.toNat = bitField x 0 8
  | .verify reg expected => reg.toNat = bitField x 0 8 ∧ expected.toNat = bitField x 8 32
  | .flashRead address => address.toNat = bitField x 0 32
  | .flashWrite operand => operand.toNat = bitField x 0 32
  | .get | .isEmpty | .isFull | .destroy => True

section
variable {c : Cfg} {es w x : Nat} {i : Instr}

/-- A word decodes to the operation whose opcode and operands stand in its fields (R71, R72). -/
theorem decode_eq_instr :
    decode c es w = .instr i ↔ bitField w 0 4 = i.opcode ∧ OperandsFrom c es (w >>> 4) i := by
  have lowField (n : Nat) : bitField w 4 n = bitField (w >>> 4) 0 n := bitField_add_four w 0 n
  have sizeField : bitField w (c.capW + 4) c.eszW = bitField (w >>> 4) c.capW c.eszW := bitField_add_four ..
  have dataField : bitField w 12 32 = bitField (w >>> 4) 8 32 := bitField_add_four w 8 32
  constructor
  · intro h
    -- One case for each opcode: the match gives the opcode field, and the operands are read from the fields.
    unfold decode at h
    split at h <;> cases h <;>
      simp [*, Instr.opcode, OperandsFrom, -BitVec.toNat_ofNat, toNat_ofNat_bitField]
  · rintro ⟨ho, hx⟩
    cases i with
    | get | isEmpty | isFull | destroy => simp [decode, ho, Instr.opcode]
    | init | put | getMany | write | read | verify | flashRead | flashWrite =>
      simp only [OperandsFrom] at hx
      simp [decode, ho, Instr.opcode, lowField, sizeField, dataField, ← hx]

/-- A word decodes to a reserved opcode exactly when its opcode field is 0x7 or 0xD to 0xF (R78). -/
theorem decode_eq_reserved {op : Nat} :
    decode c es w = .reserved op ↔ op = bitField w 0 4 ∧ (op = 0x7 ∨ 0xD ≤ op) := by
  have := bitField_lt w 0 4
  unfold decode
  split
  case h_13 =>
    simp only [Decoded.reserved.injEq, imp_false] at *
    exact ⟨fun h => by omega, fun h => h.1.symm⟩
  all_goals simp only [reduceCtorEq, false_iff]; omega

/-! ### Operands in their fields -/

/-- The operands of a well-formed operation are the fields of the number they are put in. -/
theorem operandsFrom_operandBits (h : i.wf c es = true) : OperandsFrom c es (operandBits c i) i := by
  cases i with
  | init capacity elementSize =>
    obtain ⟨hc, he⟩ : capacity < 2 ^ c.capW ∧ elementSize < 2 ^ c.eszW := by simpa [Instr.wf] using h
    exact ⟨(bitField_low hc).symm, (bitField_high hc he).symm⟩
  | put element =>
    obtain rfl : element.length = es := by simpa [Instr.wf] using h
    exact (bytesOfNat_natOfBytes element).symm
  | getMany count => exact (bitField_whole (by simpa [Instr.wf] using h)).symm
  | write r d | verify r d => exact ⟨(bitField_low r.isLt).symm, (bitField_high r.isLt d.isLt).symm⟩
  | read r => exact (bitField_whole r.isLt).symm
  | flashRead d | flashWrite d => exact (bitField_whole d.isLt).symm
  | get | isEmpty | isFull | destroy => trivial

theorem OperandsFrom.wf (h : OperandsFrom c es x i) : i.wf c es = true := by
  cases i with
  | init => obtain ⟨rfl, rfl⟩ := h; simp [Instr.wf, bitField_lt]
  | put => subst h; simp [Instr.wf]
  | getMany => subst h; simp [Instr.wf, bitField_lt]
  | get | isEmpty | isFull | destroy | write | read | verify | flashRead | flashWrite => rfl

theorem formatBits_sub_four_add (c : Cfg) (es : Nat) (i : Instr) : formatBits c es i - 4 + 4 = formatBits c es i := by
  cases i <;> rfl

/-- Operands read from `x` are the bits of `x` that the format has above the opcode. -/
theorem OperandsFrom.operandBits_eq (h : OperandsFrom c es x i) :
    operandBits c i = x % 2 ^ (formatBits c es i - 4) := by
  cases i with
  | init => obtain ⟨rfl, rfl⟩ := h; exact bitField_append ..
  | put => subst h; exact natOfBytes_bytesOfNat ..
  | getMany | read | flashRead | flashWrite => exact h
  | write | verify =>
    obtain ⟨hr, hd⟩ := h
    rw [operandBits, hr, hd]
    exact bitField_append ..
  | get | isEmpty | isFull | destroy => exact (Nat.mod_one x).symm

theorem OperandsFrom.encode_eq (h : OperandsFrom c es (w >>> 4) i) (ho : bitField w 0 4 = i.opcode) :
    encode c i = w % 2 ^ formatBits c es i := by
  rw [← formatBits_sub_four_add, mod_two_pow_add_four, ho, ← h.operandBits_eq, encode]

end

/-! ### The statements -/

/-- Settles O1: the opcode and the operand fields of the encoded word are those of the operation. -/
theorem decodeEncodeRoundTrip : Obligations.DecodeEncodeRoundTrip := by
  intro c es i h
  rw [decode_eq_instr, encode_shiftRight]
  exact ⟨encode_opcodeField c i, operandsFrom_operandBits h⟩

/-- Settles O2: fields read from a word fit their widths, and put together again they are its low bits. -/
theorem decodedWordIsEncoding : Obligations.DecodedWordIsEncoding := by
  intro c es w i h
  obtain ⟨ho, hx⟩ := decode_eq_instr.1 h
  exact ⟨hx.wf, hx.encode_eq ho⟩

/-- Settles O3, by evaluating the decoder on each word. -/
theorem specWordsDecode : Obligations.SpecWordsDecode := by
  unfold Obligations.SpecWordsDecode
  decide

/-- Settles O4: `decode_eq_reserved`, and what `issue` does with either kind of word. -/
theorem reservedAndWrongPortRefused : Obligations.ReservedAndWrongPortRefused := by
  intro c es w op p s i
  refine ⟨decode_eq_reserved, fun h => ?_, fun h hp => ?_⟩
  · simp [Machine.issue, h]
  · simp [Machine.issue, h, hp]

end Sys2Proof
end

section
/-! SUPPORT. The frames byte by byte, and the value of a read as a sum (R73 to R77). -/

namespace Sys2Proof.Machine

/-! ### The bytes of a frame -/

/-- Masking with 0xFF before cutting to a byte changes nothing. -/
theorem setWidth_and_0xFF (x : Data) : (x &&& 0xFF#32).setWidth 8 = x.setWidth 8 := by
  rw [BitVec.setWidth_and]
  exact BitVec.and_allOnes

/-- Settles O35: the bytes after the first are those of `bigEndianBytes`. -/
theorem writeFrameLayout : Obligations.WriteFrameLayout := by
  intro c row d
  refine ⟨writeFrame_length c row d, rfl, fun i hi => ?_⟩
  rw [writeFrame, Nat.add_comm, List.getElem?_cons_succ, List.getElem?_eq_getElem (by simpa using hi),
    bigEndianBytes_getElem, setWidth_and_0xFF]

/-- Settles O36: the bytes after the first are copies of 0. -/
theorem readFrameLayout : Obligations.ReadFrameLayout := by
  intro c row
  refine ⟨readFrame_length c row, rfl, fun i hi => ?_⟩
  rw [readFrame, Nat.add_comm, List.getElem?_cons_succ, List.getElem?_replicate_of_lt hi]

/-! ### The value of a read -/

/-- A byte above `n` bytes makes a number of `n + 1` bytes. -/
theorem byte_above_lt {n v : Nat} (b : Byte) (h : v < 2 ^ (8 * n)) : b.toNat * 2 ^ (8 * n) + v < 2 ^ (8 * (n + 1)) := by
  have hb : (b.toNat + 1) * 2 ^ (8 * n) ≤ 2 ^ 8 * 2 ^ (8 * n) := Nat.mul_le_mul_right _ b.isLt
  rw [← Nat.pow_add, Nat.succ_mul] at hb
  rw [show 8 * (n + 1) = 8 + 8 * n by omega]
  omega

theorem bigEndianValue_cons_toNat (b : Byte) (bs : List Byte) :
    (bigEndianValue (b :: bs)).toNat = (b.toNat * 2 ^ (8 * bs.length) + (bigEndianValue bs).toNat) % 2 ^ 32 := by
  have hb : b.toNat < 2 ^ 32 := b.isLt.trans (by decide)
  rw [bigEndianValue, BitVec.toNat_add, BitVec.toNat_shiftLeft, BitVec.toNat_setWidth, Nat.mod_eq_of_lt hb,
    Nat.shiftLeft_eq, Nat.mod_add_mod]

theorem bigEndianValue_lt (bs : List Byte) : (bigEndianValue bs).toNat < 2 ^ (8 * bs.length) := by
  induction bs with
  | nil => decide
  | cons b bs ih =>
    rw [bigEndianValue_cons_toNat]
    exact (Nat.mod_le ..).trans_lt (byte_above_lt b ih)

/-- The value of at most four bytes is their sum, each byte weighted by the number of bytes after it (R76). -/
theorem bigEndianValue_toNat {bs : List Byte} (h : bs.length ≤ 4) :
    (bigEndianValue bs).toNat =
      ((List.range bs.length).map fun i => (bs.getD i 0).toNat * 2 ^ (8 * (bs.length - 1 - i))).sum := by
  induction bs with
  | nil => rfl
  | cons b bs ih =>
    have hle : 2 ^ (8 * (bs.length + 1)) ≤ 2 ^ 32 := Nat.pow_le_pow_right (by decide) (Nat.mul_le_mul_left 8 h)
    rw [bigEndianValue_cons_toNat, Nat.mod_eq_of_lt ((byte_above_lt b (bigEndianValue_lt bs)).trans_le hle),
      ih (Nat.le_of_succ_le h)]
    simp [List.range_succ_eq_map, Function.comp_def, Nat.sub_sub, Nat.add_comm 1]

theorem bytes_le_four (width : RegWidth) : width.bytes ≤ 4 := by cases width <;> decide

/-- Settles O37: the bytes after the first are no more than four, so their sum stays below 2^32. -/
theorem readValueIsBigEndianSum : Obligations.ReadValueIsBigEndianSum := by
  intro width rx h
  cases rx with
  | nil => simp at h; omega
  | cons b bs =>
    have hw : bs.length = width.bytes := by simpa [Nat.add_comm] using h
    have hle : bs.length ≤ 4 := hw ▸ bytes_le_four width
    rw [readValue, List.drop_one, List.tail_cons, ← hw, List.take_length, bigEndianValue_toNat hle]
    simp [Nat.add_comm 1]

end Sys2Proof.Machine
end

section
/-! SUPPORT. Each operation of RB, answer by answer: what it returns, what it makes of RB, and what it leaves (R100 to
R106). -/

namespace Sys2Proof.Machine

/-! ### INIT (R100) -/

theorem exceedsStorage_iff (c : Cfg) (capacity elementSize : Nat) :
    exceedsStorage c capacity elementSize = true ↔ ∃ n, c.storageBytes = some n ∧ n < capacity * elementSize := by
  rw [exceedsStorage]
  cases c.storageBytes <;> simp

theorem exec_init_of_fits {s : State} {capacity elementSize : Nat} (hc : capacity < 2 ^ s.cfg.capW)
    (he : elementSize < 2 ^ s.cfg.eszW) :
    exec (.init capacity elementSize) s = .next
      (if s.rb.initialized then s.respond (.port .consumer) .invalidBufferState .none
        else if isPowerOfTwo capacity = false then s.respond (.port .consumer) .invalidSize .none
        else if elementSize = 0 then s.respond (.port .consumer) .invalidSize .none
        else if exceedsStorage s.cfg capacity elementSize then s.respond (.port .consumer) .noMemory .none
        else (s.withRb (freshBuffer capacity elementSize)).respond (.port .consumer) .ok .none) := by
  rw [exec, execInit, if_neg (by omega)]
  split_ifs <;> rfl

/-- A fresh buffer is full exactly when its one slot is both the first and the last. -/
theorem isFullFlag_freshBuffer {c : Cfg} {k : Nat} (hk : k < c.capW) (elementSize : Nat) :
    isFullFlag c (freshBuffer (2 ^ k) elementSize) = decide (2 ^ k = 1) := by
  simp only [isFullFlag, wrapIndex, freshBuffer, indexMask_two_pow hk, Nat.and_two_pow_sub_one_eq_mod]
  exact decide_eq_decide.2 Nat.one_mod_eq_zero_iff

/-- Settles O18: the checks in their order, each decided by its clause's premises. -/
theorem initResult : Obligations.InitResult := by
  intro s capacity elementSize hc he
  rw [exec_init_of_fits hc he]
  simp only [← isPowerOfTwo_iff, ← exceedsStorage_iff]
  refine ⟨fun hi => ?_, fun hi hp => ?_, fun hi hp h0 => ?_, fun hi hp h0 hx => ?_, fun hi hp h0 hx => ?_⟩
  · rw [if_pos hi]; rfl
  · simp [hi, hp, State.respond]
  · simp [hi, h0, State.respond]
  · simp [hi, hp, h0, hx, State.respond]
  · have hfits : exceedsStorage s.cfg capacity elementSize = false := by
      rw [← Bool.not_eq_true, exceedsStorage_iff]
      rintro ⟨n, hn, hlt⟩
      exact absurd (hx n hn) (Nat.not_le.2 hlt)
    obtain ⟨k, rfl⟩ := (isPowerOfTwo_iff _).1 hp
    have hk : k < s.cfg.capW := (Nat.pow_lt_pow_iff_right (by decide)).1 hc
    rw [if_neg (by simp [hi]), if_neg (by simp [hp]), if_neg h0, if_neg (by simp [hfits])]
    exact ⟨_, rfl, rfl, rfl, isFullFlag_freshBuffer hk elementSize⟩

/-! ### The indices moved, as `mod capacity` (R101 to R103) -/

section
variable {c : Cfg} {rb rb' : RbState} {e : Element}

theorem advanceTail_eq (h : RbInv c rb) (hi : rb.initialized = true) (k : Nat) :
    advanceTail c rb k = { rb with tail := (rb.tail + k) % rb.capacity } :=
  RbState.ext rfl rfl rfl rfl (advanceTail_tail h hi k) rfl

/-- What PUT makes of RB: `slotWrite` changes the storage, `advanceHead` the two indices. -/
theorem advanceHead_of_slotWrite (h : RbInv c rb) (hw : slotWrite rb rb.head e = .next rb') :
    advanceHead c rb' = { rb with
      head := (rb.head + 1) % rb.capacity
      tail := if (rb.head + 1) % rb.capacity = rb.tail then (rb.tail + 1) % rb.capacity else rb.tail
      mem := rb'.mem } := by
  have h' := rbInv_slotWrite h hw
  obtain ⟨⟨hi, -⟩, -, rfl⟩ := (slotWrite_eq_next _ _ _).1 hw
  exact RbState.ext rfl rfl rfl (advanceHead_head h' hi) (advanceHead_tail h' hi) rfl

/-- The slot written reads as the element, and no byte outside it changes (R41). -/
theorem slotWrite_slot {i : Nat} (hw : slotWrite rb i e = .next rb') :
    slotRead rb' i = .next e ∧
      ∀ a, a < i * rb.elementSize ∨ i * rb.elementSize + rb.elementSize ≤ a →
        readByte rb'.mem a = readByte rb.mem a := by
  obtain ⟨hx, hl, rfl⟩ := (slotWrite_eq_next _ _ _).1 hw
  exact ⟨by rw [slotRead_written hx hl, if_pos rfl], fun a ha => readByte_writeBytes_other e _ _ a (by rwa [hl])⟩

/-- PUT makes one more element readable, unless the buffer was full (R101). -/
theorem availCount_put (h : RbInv c rb) (hw : slotWrite rb rb.head e = .next rb') :
    availCount c (advanceHead c rb') =
      if availCount c rb + 1 = rb.capacity then availCount c rb else availCount c rb + 1 := by
  have h' := rbInv_slotWrite h hw
  obtain ⟨⟨hi, -⟩, -, rfl⟩ := (slotWrite_eq_next _ _ _).1 hw
  exact availCount_advanceHead h' hi

theorem isEmptyFlag_iff (h : RbInv c rb) (hi : rb.initialized = true) :
    isEmptyFlag rb = true ↔ availCount c rb = 0 := by
  obtain ⟨-, hempty, -, -⟩ := availCountsReadable c rb h hi
  exact hempty.symm

theorem isFullFlag_iff (h : RbInv c rb) (hi : rb.initialized = true) :
    isFullFlag c rb = true ↔ availCount c rb + 1 = rb.capacity := by
  obtain ⟨-, -, hfull, -⟩ := availCountsReadable c rb h hi
  exact hfull.symm

end

/-! ### PUT (R101) -/

/-- Settles O19: the slot by `slotWrite_slot`, the indices by `advanceHead_of_slotWrite`, the flags by the number of
readable elements afterwards. -/
theorem putResult : Obligations.PutResult := by
  intro s e h
  refine ⟨fun hoff => by simp [exec, execPut, hoff, State.respond], fun hi hl => ?_⟩
  obtain ⟨rb, hw, hexec⟩ := exec_put_of_length h hi hl
  obtain ⟨hread, hframe⟩ := slotWrite_slot hw
  have hrb := advanceHead_of_slotWrite h hw
  have hinv : RbInv s.cfg (advanceHead s.cfg rb) := (RbMove.put hw).rbInv h
  obtain ⟨hi', hcap, -⟩ := (RbMove.put (c := s.cfg) hw).parameters
  have havail := availCount_put h hw
  have hlt := availCount_lt h hi
  refine ⟨_, rb.mem, hexec, by rw [hrb]; rfl, hread, hframe, fun hc => ?_, ?_⟩
  · have hne : availCount s.cfg (advanceHead s.cfg rb) ≠ 0 := by rw [havail]; split_ifs <;> omega
    exact Bool.eq_false_iff.2 (mt (isEmptyFlag_iff hinv (hi'.trans hi)).1 hne)
  · refine (isFullFlag_iff hinv (hi'.trans hi)).trans ?_
    rw [havail, hcap]
    split_ifs <;> omega

/-! ### GET (R102) -/

theorem exec_get_of_slotRead {s : State} {e : Element} (hi : s.rb.initialized = true) (hne : s.rb.head ≠ s.rb.tail)
    (he : slotRead s.rb s.rb.tail = .next e) :
    exec .get s = .next ((s.withRb (advanceTail s.cfg s.rb 1)).respond (.port .consumer) .ok (.element e)) := by
  simp [exec, execGet, isEmptyFlag, hi, hne, he]

/-- Settles O21: `tail` moves past one readable element, so `avail` is one less. -/
theorem getResult : Obligations.GetResult := by
  intro s h
  refine ⟨fun hoff => ?_, fun hi he => ?_, fun e hi hne he => ?_⟩
  · simp [exec, execGet, hoff, State.respond]
  · simp [exec, execGet, isEmptyFlag, hi, he, State.respond]
  · have hpos : 1 ≤ availCount s.cfg s.rb := Nat.pos_of_ne_zero (mt (availCount_iff h hi).1.1 hne)
    have hlt := availCount_lt h hi
    have hinv := rbInv_advanceTail h hi 1
    have havail := availCount_advanceTail h hi hpos
    refine ⟨_, exec_get_of_slotRead hi hne he, by rw [advanceTail_eq h hi]; rfl, ?_, ?_⟩
    · refine Bool.eq_false_iff.2 fun hfull => ?_
      have hfull' := (isFullFlag_iff hinv hi).1 hfull
      rw [havail, advanceTail_capacity] at hfull'
      omega
    · refine (isEmptyFlag_iff hinv hi).trans ?_
      rw [havail]
      omega

/-! ### GETMANY (R103) -/

section
variable {c : Cfg} {rb : RbState}

/-- An `Unwritten` slot of the storage is not read: an element has at least one byte (R11, R17). -/
theorem slotRead_ne_next_of_unwritten (h : RbInv c rb) (hi : rb.initialized = true) {i : Nat} (hu : slotUnwritten rb i)
    (e : Element) : slotRead rb i ≠ .next e := by
  intro hr
  obtain ⟨-, hl, hbytes⟩ := (slotRead_eq_next _ _ _).1 hr
  obtain ⟨hpos, -⟩ := h.esz hi
  have hbyte := hbytes 0 (by omega)
  rw [hu 0 hpos] at hbyte
  cases hbyte

/-- Both copies of RunRead stay in the storage, so the one fault they can meet is an `Unwritten` slot (R51). -/
theorem runRead_eq_fault {t k : Nat} {r : Fault} (hi : rb.initialized = true) (ht : t < rb.capacity)
    (hk : k ≤ rb.capacity) (hr : runRead rb t k = .fault r) : r = .unwrittenSlot := by
  have hslot : ∀ i, i < rb.capacity → slotRead rb i = .fault r → r = .unwrittenSlot := by
    intro i hlt hf
    obtain ⟨e, he⟩ | ⟨hu, -⟩ | ⟨-, hout⟩ := slotRead_cases rb i
    · simp [he] at hf
    · simpa [hu, eq_comm] using hf
    · exact absurd ⟨hi, hlt⟩ hout
  simp only [runRead, andThen_eq_fault, reduceCtorEq, and_false, exists_false, or_false] at hr
  obtain hr | ⟨es, -, hr⟩ := hr <;> obtain ⟨j, hj, hf⟩ := copyRun_eq_fault hr <;> exact hslot _ (by omega) hf

/-- RunRead over an `Unwritten` slot faults (R17, R51). -/
theorem runRead_of_unwritten (h : RbInv c rb) (hi : rb.initialized = true) {t k j : Nat} (ht : t < rb.capacity)
    (hk : k ≤ rb.capacity) (hj : j < k) (hu : slotUnwritten rb ((t + j) % rb.capacity)) :
    runRead rb t k = .fault .unwrittenSlot := by
  cases hr : runRead rb t k with
  | next es =>
    obtain ⟨hl, hs⟩ := (runRead_eq_next ht hk).1 hr
    exact absurd (hs j (hl ▸ hj)) (slotRead_ne_next_of_unwritten h hi hu _)
  | fault r => rw [runRead_eq_fault hi ht hk hr]
  | refused r => exact absurd hr (runRead_ne_refused rb t k r)

end

@[simp] theorem getManyCount_zero (s : State) : getManyCount s 0 = 0 := by
  rw [getManyCount]
  split <;> exact Nat.zero_min _

section
variable {s : State} {n : Nat} (h : RbInv s.cfg s.rb) (hi : s.rb.initialized = true)
include h hi

theorem getManyCount_le_capacity : getManyCount s n ≤ s.rb.capacity := by
  have hlt := availCount_lt h hi
  rw [getManyCount]
  split <;> omega

/-- GETMANY returns what RunRead gives; for `count = 0` that is nothing. -/
theorem exec_getMany_of_runRead {es : List Element} (hn : n < 2 ^ s.cfg.capW)
    (hr : runRead s.rb s.rb.tail (getManyCount s n) = .next es) :
    exec (.getMany n) s = .next ((s.withRb (advanceTail s.cfg s.rb (getManyCount s n))).respond (.port .consumer) .ok
      (.many (getManyCount s n) es)) := by
  by_cases h0 : n = 0
  · subst h0
    rw [getManyCount_zero] at hr
    obtain rfl := List.eq_nil_of_length_eq_zero ((runRead_eq_next (h.tail hi) (Nat.zero_le _)).1 hr).1
    simp [exec, execGetMany, hi, advanceTail_zero h hi, State.withRb]
  · simp [exec, execGetMany, Nat.not_le.2 hn, hi, h0, hr]

end

/-- Settles O22: the count of either limit is at most capacity, so RunRead either reads all its slots or faults at an
`Unwritten` one. -/
theorem getManyResult : Obligations.GetManyResult := by
  intro s count k h hn hk
  obtain rfl : k = getManyCount s count := hk
  refine ⟨fun hoff => ?_, fun hi h0 => ?_, fun es hi h0 hl hs => ?_, fun j hi hj hu => ?_⟩
  · simp [exec, execGetMany, Nat.not_le.2 hn, hoff, State.respond]
  · simp [exec, execGetMany, h0, hi, State.respond]
  · have hr := (runRead_eq_next (h.tail hi) (getManyCount_le_capacity h hi)).2 ⟨hl, hs⟩
    rw [exec_getMany_of_runRead h hi hn hr, advanceTail_eq h hi]
    rfl
  · have h0 : count ≠ 0 := by
      rintro rfl
      simp at hj
    have hr := runRead_of_unwritten h hi (h.tail hi) (getManyCount_le_capacity h hi) hj hu
    simp [exec, execGetMany, Nat.not_le.2 hn, hi, h0, hr]

/-! ### ISEMPTY, ISFULL, DESTROY (R104 to R106) -/

/-- Settles O23: the flag of R12, which holds of the reset buffer. -/
theorem isEmptyResult : Obligations.IsEmptyResult :=
  fun _ h => ⟨rfl, fun hoff => by rw [h.off hoff]; rfl⟩

/-- Settles O24: `isFullFlag_eq` on an initialized buffer, `isFullFlag_off` on an uninitialized one. -/
theorem isFullResult : Obligations.IsFullResult := by
  intro s h hw
  have hexec : exec .isFull s = .next (s.respond (.port .consumer) .ok (.bit (isFullFlag s.cfg s.rb))) := rfl
  refine ⟨fun hi => ?_, fun hoff => ?_⟩
  · rw [hexec, isFullFlag_eq h hi]; rfl
  · rw [hexec, isFullFlag_off h hoff hw]; rfl

/-- Settles O25: DESTROY has no check, and the reset buffer is the one of R28. -/
theorem destroyResult : Obligations.DestroyResult := fun _ => rfl

end Sys2Proof.Machine
end

section
/-! SUPPORT. Runs of several RB operations (R109 to R112): what a run keeps, single GETs, PUTs, and the count of
elements. -/

namespace Sys2Proof.Machine

/-! ### What the operations of a run keep -/

/-- An operation other than INIT and DESTROY keeps the invariant of RB, its parameters and the configuration (R27). -/
theorem exec_steady {i : Instr} {s t : State} (hs : steadyOp i = true) (h : RbInv s.cfg s.rb) (ht : exec i s = .next t) :
    RbInv t.cfg t.rb ∧ t.cfg = s.cfg ∧ t.rb.initialized = s.rb.initialized ∧ t.rb.capacity = s.rb.capacity ∧
      t.rb.elementSize = s.rb.elementSize := by
  have hc := exec_cfg ht
  obtain hm | hr := exec_rbMove ht
  · exact ⟨hc ▸ hm.rbInv h, hc, hm.parameters⟩
  · obtain ⟨_, _, rfl⟩ | rfl := hr.operation <;> simp [steadyOp] at hs

theorem execAll_cons {i : Instr} {is : List Instr} {s t : State} (h : exec i s = .next t) :
    execAll (i :: is) s = execAll is t := by
  rw [execAll, h, andThen_next]

/-! ### Single GETs (R109) -/

theorem advanceTail_add {c : Cfg} {rb : RbState} (h : RbInv c rb) (hi : rb.initialized = true) (j k : Nat) :
    advanceTail c (advanceTail c rb j) k = advanceTail c rb (j + k) := by
  rw [advanceTail_eq (rbInv_advanceTail h hi j) hi, advanceTail_eq h hi, advanceTail_eq h hi]
  simp [Nat.add_assoc]

/-- As many GETs as the list `es` is long return the oldest elements one by one, and `tail` passes them. -/
theorem execAll_gets {s : State} {es r : List Element} (h : RbInv s.cfg s.rb) (hi : s.rb.initialized = true)
    (hq : Holds s.cfg s.rb (es ++ r)) :
    ∃ u, execAll (List.replicate es.length .get) s = .next u ∧ u.rb = advanceTail s.cfg s.rb es.length ∧
      u.responses = s.responses ++ es.map fun e => ⟨.port .consumer, .ok, .element e⟩ := by
  induction es generalizing s with
  | nil => exact ⟨s, rfl, (advanceTail_zero h hi).symm, by simp⟩
  | cons e es ih =>
    have hget := exec_get_of_holds_cons h hi hq
    have hone : 1 ≤ availCount s.cfg s.rb := by rw [← hq.1]; simp
    have h' := rbInv_advanceTail h hi 1
    obtain ⟨u, hu, hrb, hresp⟩ := ih
      (s := (s.withRb (advanceTail s.cfg s.rb 1)).respond (.port .consumer) .ok (.element e)) h' hi
      (hq.advanceTail h hi hone)
    refine ⟨u, ?_, ?_, by simp [hresp]⟩
    · rw [List.length_cons, List.replicate_succ, execAll_cons hget, hu]
    · rw [hrb]
      exact (advanceTail_add h hi 1 _).trans (by rw [List.length_cons, Nat.add_comm])

/-- Both limits give `min(n, avail)` while `n` is at most `avail`, and `GETMANY_LIMIT = avail` always does. -/
theorem getManyCount_eq_min_avail {s : State} {n : Nat} (h : RbInv s.cfg s.rb) (hi : s.rb.initialized = true)
    (hn : s.cfg.getManyLimit = .avail ∨ n ≤ availCount s.cfg s.rb) :
    getManyCount s n = min n (availCount s.cfg s.rb) := by
  have hlt := availCount_lt h hi
  cases hlim : s.cfg.getManyLimit with
  | avail => simp only [getManyCount, hlim]
  | capacity =>
    have hle : n ≤ availCount s.cfg s.rb := hn.resolve_left (by simp [hlim])
    simp only [getManyCount, hlim]
    omega

/-- Settles O28: both read the oldest `m` elements of the queue that RB holds, and both move `tail` by `m`. -/
theorem getManyEqualsSingleGets : Obligations.GetManyEqualsSingleGets := by
  intro s n m h hi hl hn hm hlim
  obtain ⟨q, hq⟩ := (liveInv_iff_holds hi).1 hl
  have hcount : getManyCount s n = m := (getManyCount_eq_min_avail h hi hlim).trans hm.symm
  have hle : m ≤ availCount s.cfg s.rb := hm ▸ Nat.min_le_right ..
  have hlen : (q.take m).length = m := by simp [hq.1, hle]
  have hrun : runRead s.rb s.rb.tail (getManyCount s n) = .next (q.take m) := by
    rw [hcount]
    exact hq.runRead h hi hle
  obtain ⟨u, hu, hrb, hresp⟩ := execAll_gets (es := q.take m) (r := q.drop m) h hi (by rwa [List.take_append_drop])
  rw [hlen] at hu hrb
  refine ⟨_, u, q.take m, exec_getMany_of_runRead h hi hn hrun, hu, hlen, ?_, ?_, hresp⟩
  · rw [hrb, hcount]; rfl
  · rw [hcount]; rfl

/-! ### PUTs into a fresh buffer (R110) -/

/-- A FIFO of `capacity - 1` places that holds the newest elements put so far holds the newest ones after a put. -/
theorem fifoPut_rtake {capacity : Nat} (hc : 0 < capacity) (p : List Element) (e : Element) :
    fifoPut capacity (p.rtake (capacity - 1)) e = (p ++ [e]).rtake (capacity - 1) := by
  obtain ⟨n, rfl⟩ := Nat.exists_eq_add_one.2 hc
  have hlen : (p.rtake n).length = p.length - (p.length - n) := List.length_drop
  rw [fifoPut, Nat.add_sub_cancel]
  split_ifs with hfull
  · rw [← List.rtake_concat_succ]
    simp only [List.rtake, List.drop_drop, List.length_append, List.length_singleton]
    congr 1
    omega
  · simp only [List.rtake, List.length_append, List.length_singleton]
    rw [show p.length - n = 0 by omega, show p.length + 1 - n = 0 by omega, List.drop_zero, List.drop_zero]

/-- PUTs of the right length on a buffer that holds the newest of the elements `p` leave it holding the newest of `p` and
theirs. -/
theorem execAll_puts {s : State} (es p : List Element) (h : RbInv s.cfg s.rb) (hi : s.rb.initialized = true)
    (hes : ∀ e ∈ es, e.length = s.rb.elementSize) (hq : Holds s.cfg s.rb (p.rtake (s.rb.capacity - 1))) :
    ∃ t, execAll (es.map .put) s = .next t ∧ RbInv t.cfg t.rb ∧ t.rb.initialized = true ∧
      t.rb.capacity = s.rb.capacity ∧ Holds t.cfg t.rb ((p ++ es).rtake (s.rb.capacity - 1)) := by
  induction es generalizing s p with
  | nil => exact ⟨s, rfl, h, hi, rfl, by simpa using hq⟩
  | cons e es ih =>
    obtain ⟨rb, hw, hput⟩ := exec_put_of_length h hi (hes e (by simp))
    have hq' := hq.put h hw
    rw [fifoPut_rtake (capacity_pos h hi)] at hq'
    obtain ⟨h', -, hi', hc', hsz'⟩ := exec_steady rfl h hput
    obtain ⟨t, ht, hinv, hit, hcap, hheld⟩ := ih (p ++ [e]) h' (hi'.trans hi)
      (fun x hx => (hes x (by simp [hx])).trans hsz'.symm) (hc' ▸ hq')
    refine ⟨t, by rw [List.map_cons, execAll_cons hput, ht], hinv, hit, hcap.trans hc', ?_⟩
    rw [hc', List.append_assoc] at hheld
    exact hheld

/-- Settles O30: `execAll_puts` from the empty queue; the buffer is full when the queue has `C - 1` elements. -/
theorem putsFillAndOverwrite : Obligations.PutsFillAndOverwrite := by
  intro s k elementSize es _ hrb h hes
  have hi : s.rb.initialized = true := by rw [hrb]; rfl
  have hcap : s.rb.capacity = 2 ^ k := by rw [hrb]; rfl
  have hq : Holds s.cfg s.rb [] :=
    ⟨((availCount_iff h hi).1.2 (by rw [hrb]; rfl)).symm, fun j hj => absurd hj (Nat.not_lt_zero j)⟩
  obtain ⟨t, ht, hinv, hit, hct, hheld⟩ := execAll_puts es [] h hi (by rw [hrb]; exact hes) (by simpa using hq)
  rw [hcap, List.nil_append] at hheld
  refine ⟨t, ht, ?_, hheld⟩
  have hpos := Nat.two_pow_pos k
  rw [hheld.isFullFlag hinv hit, decide_eq_decide, hct, hcap, List.rtake, List.length_drop]
  omega

/-! ### Capacity 1 (R111) -/

/-- Settles O31: `avail` is below 1, so the queue that RB holds is empty, and both indices are 0 modulo 1. -/
theorem capacityOneNeverReadable : Obligations.CapacityOneNeverReadable := by
  intro s h hi hc
  have hhead : s.rb.head = 0 := by have := h.head hi; omega
  have htail : s.rb.tail = 0 := by have := h.tail hi; omega
  have hq : Holds s.cfg s.rb [] :=
    ⟨by have := availCount_lt h hi; simp; omega, fun j hj => absurd hj (Nat.not_lt_zero j)⟩
  obtain ⟨-, hget, -, -, hempty, hfull⟩ := rbRefinesOverwritingFifo s [] h hi hq
  refine ⟨hhead, htail, hempty, by simpa [hc] using hfull, hget rfl, fun n hn hlim => ?_, fun e hl => ?_⟩
  · rw [exec_getMany_of_holds h hi hq hn hlim]
    simp [advanceTail_zero h hi, State.respond, State.withRb]
  · obtain ⟨rb, hw, hput⟩ := exec_put_of_length h hi hl
    have hrb := advanceHead_of_slotWrite h hw
    obtain ⟨hread, -⟩ := slotWrite_slot hw
    rw [hhead] at hread
    refine ⟨_, hput, ?_, ?_, hread⟩
    · simp [hrb, hc, Nat.mod_one]
    · simp [hrb, hc, htail, Nat.mod_one]

/-! ### The count of elements along a run (R112) -/

@[simp] theorem returnedTotal_cons (r : Response) (rs : List Response) :
    returnedTotal (r :: rs) = returnedCount r + returnedTotal rs := by
  simp [returnedTotal]

/-- One operation's balance: a PUT adds an element, which a full buffer takes from the oldest one; GET and GETMANY return
as many elements as they take. -/
theorem exec_balance {i : Instr} {s t : State} (hs : steadyOp i = true) (h : RbInv s.cfg s.rb)
    (hi : s.rb.initialized = true) (hlim : s.cfg.getManyLimit = .avail) (ht : exec i s = .next t) :
    ∃ r, t.responses = s.responses ++ [r] ∧
      (if isPut i then 1 else 0) + availCount s.cfg s.rb = discardOf i s + returnedCount r + availCount t.cfg t.rb := by
  have hoff : ¬s.rb.initialized = false := by simp [hi]
  cases i with
  | put e =>
    obtain ⟨hno, -⟩ | ⟨-, hh, hl, rfl⟩ := execPut_next ht
    · exact absurd hno hoff
    · have havail := availCount_put h ((slotWrite_eq_next _ _ e).2 ⟨⟨hi, hh⟩, hl, rfl⟩)
      refine ⟨_, rfl, ?_⟩
      simp only [isPut, discardOf, isFullFlag_iff h hi, returnedCount, respond_rb, respond_cfg, withRb_rb, withRb_cfg,
        havail]
      split_ifs <;> omega
  | get =>
    obtain ⟨hno, -⟩ | ⟨-, -, rfl⟩ | ⟨-, hne, e, -, rfl⟩ := execGet_next ht
    · exact absurd hno hoff
    · exact ⟨_, rfl, by simp [isPut, discardOf, returnedCount]⟩
    · have hpos : 1 ≤ availCount s.cfg s.rb := Nat.pos_of_ne_zero (mt (availCount_iff h hi).1.1 hne)
      refine ⟨_, rfl, ?_⟩
      simp only [isPut, discardOf, returnedCount, respond_rb, respond_cfg, withRb_rb, withRb_cfg,
        availCount_advanceTail h hi hpos, Bool.false_eq_true, if_false]
      omega
  | getMany n =>
    obtain ⟨-, ⟨hno, -⟩ | ⟨-, -, rfl⟩ | ⟨-, -, es, -, rfl⟩⟩ := execGetMany_next ht
    · exact absurd hno hoff
    · exact ⟨_, rfl, by simp [isPut, discardOf, returnedCount]⟩
    · have hle : getManyCount s n ≤ availCount s.cfg s.rb := by
        rw [getManyCount_eq_min_avail h hi (.inl hlim)]; exact Nat.min_le_right ..
      refine ⟨_, rfl, ?_⟩
      simp only [isPut, discardOf, returnedCount, respond_rb, respond_cfg, withRb_rb, withRb_cfg,
        availCount_advanceTail h hi hle, Bool.false_eq_true, if_false]
      omega
  | isEmpty | isFull =>
    obtain rfl := Host.Outcome.next.inj ht
    exact ⟨_, rfl, by simp [isPut, discardOf, returnedCount]⟩
  | init | destroy | write | read | verify | flashRead | flashWrite => simp [steadyOp] at hs

/-- The balance of a run is the sum of its operations' balances. -/
theorem execAll_balance (is : List Instr) {s t : State} (h : RbInv s.cfg s.rb) (hi : s.rb.initialized = true)
    (hlim : s.cfg.getManyLimit = .avail) (hs : ∀ i ∈ is, steadyOp i = true) (ht : execAll is s = .next t) :
    ∃ rs, t.responses = s.responses ++ rs ∧
      is.countP isPut + availCount s.cfg s.rb = discardTotal is s + returnedTotal rs + availCount t.cfg t.rb := by
  induction is generalizing s with
  | nil =>
    obtain rfl := Host.Outcome.next.inj ht
    exact ⟨[], by simp, by simp [discardTotal, returnedTotal]⟩
  | cons i is ih =>
    obtain ⟨u, hu, hrest⟩ := andThen_eq_next.1 ht
    have hsi := hs i (by simp)
    obtain ⟨r, hr, hone⟩ := exec_balance hsi h hi hlim hu
    obtain ⟨h', hc', hi', -⟩ := exec_steady hsi h hu
    obtain ⟨rs, hrs, hall⟩ := ih h' (hi'.trans hi) (hc' ▸ hlim) (fun j hj => hs j (by simp [hj])) hrest
    refine ⟨r :: rs, by simp [hrs, hr], ?_⟩
    simp only [List.countP_cons, discardTotal, hu, returnedTotal_cons]
    omega

/-- Settles O32: `execAll_balance`, the responses of the run being those after the earlier ones. -/
theorem discardsAccountForLoss : Obligations.DiscardsAccountForLoss := by
  intro is s t h hi hlim hs ht
  obtain ⟨rs, hrs, hbal⟩ := execAll_balance is h hi hlim hs ht
  rw [hrs, List.drop_left]
  exact hbal

end Sys2Proof.Machine
end

section
/-! SUPPORT. SAMPLE step by step: its READ through the engine, then its PUT (R107). -/

namespace Sys2Proof.Machine

/-! ### The element of a read value (R107) -/

/-- Sending a value gives back the bytes it was received as (R74, R76): only the value's low bits are sent. -/
theorem bigEndianBytes_of_low_bits {bs : List Byte} {x : Data} (hle : bs.length ≤ 4)
    (hx : x.toNat % 2 ^ (8 * bs.length) = (bigEndianValue bs).toNat) : bigEndianBytes bs.length x = bs := by
  induction bs with
  | nil => rfl
  | cons b bs ih =>
    have hrest := bigEndianValue_lt bs
    have hpow : 2 ^ (8 * (bs.length + 1)) = 2 ^ (8 * bs.length) * 2 ^ 8 := by rw [← Nat.pow_add, Nat.mul_succ]
    have hle32 : 2 ^ (8 * (bs.length + 1)) ≤ 2 ^ 32 := Nat.pow_le_pow_right (by decide) (Nat.mul_le_mul_left 8 hle)
    rw [List.length_cons, bigEndianValue_cons_toNat, Nat.mod_eq_of_lt ((byte_above_lt b hrest).trans_le hle32)] at hx
    rw [List.length_cons, bigEndianBytes]
    congr 1
    · apply BitVec.eq_of_toNat_eq
      rw [BitVec.toNat_setWidth, BitVec.toNat_ushiftRight, Nat.shiftRight_eq_div_pow, ← Nat.mod_mul_right_div_self,
        ← hpow, hx, Nat.mul_comm, Nat.mul_add_div (Nat.two_pow_pos _), Nat.div_eq_of_lt hrest, Nat.add_zero]
    · refine ih (Nat.le_of_succ_le hle) ?_
      rw [← Nat.mod_mod_of_dvd x.toNat (hpow ▸ Nat.dvd_mul_right ..), hx, Nat.mul_comm,
        Nat.mul_add_mod_self_left, Nat.mod_eq_of_lt hrest]

/-- By default the element is the data bytes of the answer, in wire order (R107). -/
theorem elemOfValue_readValue {c : Cfg} (hc : c.elemLayout = .wireOrder) {rx : List Byte} {width : RegWidth}
    (hl : rx.length = 1 + width.bytes) : elemOfValue c (readValue rx width.bytes) width.bytes = rx.drop 1 := by
  have hlen : (rx.drop 1).length = width.bytes := by simp [hl]
  have hle : (rx.drop 1).length ≤ 4 := hlen ▸ bytes_le_four width
  simp only [elemOfValue, hc, readValue]
  rw [← hlen, List.take_length]
  exact bigEndianBytes_of_low_bits hle (Nat.mod_eq_of_lt (bigEndianValue_lt _))

/-! ### The steps of a SAMPLE -/

/-- `s` with `ps` as what is left of the schedule. -/
def State.withSched (s : State) (ps : List Port) : State := { s with env := { s.env with sched := ps } }

section
variable (s : State) (ps : List Port)

@[simp] theorem withSched_cfg : (s.withSched ps).cfg = s.cfg := rfl
@[simp] theorem withSched_rb : (s.withSched ps).rb = s.rb := rfl
@[simp] theorem withSched_rp : (s.withSched ps).rp = s.rp := rfl
@[simp] theorem withSched_env : (s.withSched ps).env = { s.env with sched := ps } := rfl
@[simp] theorem withSched_responses : (s.withSched ps).responses = s.responses := rfl

/-- What the device answers does not depend on the schedule. -/
@[simp] theorem deviceBytes_withSched (env : EnvState) (n : Nat) :
    deviceBytes { env with sched := ps } n = deviceBytes env n := rfl

@[simp] theorem afterBytes_withSched (env : EnvState) (n : Nat) :
    afterBytes { env with sched := ps } n = { afterBytes env n with sched := ps } := rfl

end

section
variable {s t : State} {ps : List Port}

/-- A run of one more step goes on from that step's next state. -/
theorem run_succ_of_next {M : Host.Core} {s t : M.State} (h : M.step s = .next t) (n : Nat) :
    M.run (n + 1) s = M.run n t := by
  simp only [Host.Core.run, h]

theorem run_succ (h : step s = .next t) (n : Nat) : Host.Core.run core (n + 1) s = Host.Core.run core n t :=
  run_succ_of_next (M := core) h n

theorem step_of_sched {p : Port} (hs : s.env.sched = p :: ps) : step s = serve p (s.withSched ps) := by
  rw [step, nextTurn_of_sched hs, afterTurn_of_sched hs, State.withSched]

/-! #### The READ and the PUT of agent P -/

theorem serveProducer_sample {rest : List ProducerReq} (hi : rpBusy s.rp = false) (hput : s.env.samplePut = none)
    (hreq : s.env.producer = .sample :: rest) :
    serveProducer s = startSample { s with env := { s.env with producer := rest } } := by
  simp [serveProducer, sampling, hi, hput, hreq]

theorem serveProducer_samplePut {v : Data} (hi : rpBusy s.rp = false) (hput : s.env.samplePut = some v) :
    serveProducer s = finishSample v s := by
  simp [serveProducer, sampling, hi, hput]

/-- The READ of a SAMPLE is accepted by an idle engine (R140). -/
theorem startSample_of_row {row : RegRow} (hi : rpBusy s.rp = false) (hr : s.cfg.row s.cfg.regScanResult = some row) :
    startSample s = .next ((s.loadOp .sample .read s.cfg.regScanResult s.rp.data).setPhase .sel) := by
  rw [startSample, acceptRegOp_valid hi hr]

/-- The PUT of a SAMPLE is the operation PUT (R107). -/
theorem finishSample_of_row {row : RegRow} (hr : s.cfg.row s.cfg.regScanResult = some row) (v : Data) :
    finishSample v s =
      exec (.put (elemOfValue s.cfg v row.width.bytes)) { s with env := { s.env with samplePut := none } } := by
  have hw : scanWidth s.cfg = row.width.bytes := by simp only [scanWidth, hr]
  rw [finishSample, hw, exec]

theorem step_startSample {rest : List ProducerReq} {row : RegRow} (hs : s.env.sched = .producer :: ps)
    (hp : s.rp.phase = .idle) (hput : s.env.samplePut = none) (hreq : s.env.producer = .sample :: rest)
    (hr : s.cfg.row s.cfg.regScanResult = some row) :
    step s = .next (({ s with env := { s.env with sched := ps, producer := rest } }.loadOp .sample .read
      s.cfg.regScanResult s.rp.data).setPhase .sel) := by
  have hi : rpBusy s.rp = false := (rpBusy_eq_false _).2 hp
  rw [step_of_sched hs, serve, serveProducer_sample (by exact hi) (by exact hput) (by exact hreq)]
  exact startSample_of_row hi hr

theorem step_finishSample {v : Data} {row : RegRow} (hs : s.env.sched = .producer :: ps) (hp : s.rp.phase = .idle)
    (hput : s.env.samplePut = some v) (hr : s.cfg.row s.cfg.regScanResult = some row) :
    step s = exec (.put (elemOfValue s.cfg v row.width.bytes))
      { s with env := { s.env with sched := ps, samplePut := none } } := by
  rw [step_of_sched hs, serve, serveProducer_samplePut (by exact (rpBusy_eq_false _).2 hp) (by exact hput)]
  exact finishSample_of_row (s := s.withSched ps) hr v

/-! #### The engine's turns (R175) -/

/-- A busy engine's turn is a step of the engine, and a run goes on from its next state. -/
theorem run_engine (hs : s.env.sched = .rp :: ps) (hp : s.rp.phase ≠ .idle) (he : engineStep (s.withSched ps) = .next t)
    (n : Nat) : Host.Core.run core (n + 1) s = Host.Core.run core n t := by
  refine run_succ ?_ n
  rw [step_of_sched hs, serve, serveRp]
  exact (if_pos ((rpBusy_eq_true _).2 hp)).trans he

theorem engineStep_sel (hp : s.rp.phase = .sel) : engineStep s = .next ((s.busCs 0#1).setPhase .xfer) := by
  simp only [engineStep, hp, engineSel]

/-- XFER of a READ sends the read frame and latches the value of the answer (R142). -/
theorem engineStep_xfer_read {row : RegRow} (hp : s.rp.phase = .xfer) (hop : s.rp.op = .read)
    (hr : s.cfg.row s.rp.reg = some row) :
    engineStep s = .next (((s.busXfer (readFrame s.cfg row)).latch .ok (valueRead s row)).setPhase .desel) := by
  simp only [engineStep, hp, engineXfer, withRow, hr, hop, exchangeRead_eq]

/-- DESEL of the READ of a SAMPLE returns the value latched, and keeps it for the PUT (R79, R107). -/
theorem engineStep_desel_sampleRead (hp : s.rp.phase = .desel) (hop : s.rp.op = .read) (hcl : s.rp.client = .sample)
    (hst : s.rp.resStatus = .ok) :
    engineStep s = .next { ((s.busCs 1#1).setPhase .idle).respond (.port .rp) .ok (.value s.rp.resValue) with
      env := { s.env with samplePut := some s.rp.resValue } } := by
  have hres : latchedResult s.rp = .value s.rp.resValue := by simp only [latchedResult, hst, if_true, okResult, hop]
  simp only [engineStep, hp, engineDesel, hcl, hst, hres]
  rfl

/-- Three turns of the engine take the READ of a SAMPLE from SEL to its response. -/
theorem run_sampleRead {row : RegRow} {rx : List Byte} {v : Data} (hs : s.env.sched = .rp :: .rp :: .rp :: ps)
    (hp : s.rp.phase = .sel) (hop : s.rp.op = .read) (hcl : s.rp.client = .sample) (hr : s.cfg.row s.rp.reg = some row)
    (hrx : rx = deviceBytes s.env (1 + row.width.bytes)) (hv : v = readValue rx row.width.bytes) (n : Nat) :
    Host.Core.run core (n + 3) s = Host.Core.run core n { s with
      rp := { s.rp with
        phase := .idle, cs := 1#1, resStatus := .ok, resValue := v
        history := s.rp.history ++ [.cs 0#1, .xfer (readFrame s.cfg row) rx, .cs 1#1] }
      env := { afterBytes s.env (1 + row.width.bytes) with sched := ps, samplePut := some v }
      responses := s.responses ++ [⟨.port .rp, .ok, .value v⟩] } := by
  refine (run_engine hs (by simp [hp]) (engineStep_sel (by exact hp)) (n + 2)).trans ?_
  refine (run_engine rfl (by simp) (engineStep_xfer_read rfl (by exact hop) (by exact hr)) (n + 1)).trans ?_
  refine (run_engine rfl (by simp) (engineStep_desel_sampleRead rfl (by exact hop) (by exact hcl) rfl) n).trans
    (congrArg _ ?_)
  apply State.ext
  · simp
  · simp
  · apply RpState.ext <;> simp [valueRead, hrx, hv]
  · simp [valueRead, hrx, hv]
  · simp [valueRead, hrx, hv]

/-- A SAMPLE presented on an idle engine, up to its PUT: the READ's response is returned and its value kept. -/
theorem run_sampleUntilPut {rest : List ProducerReq} {row : RegRow} {rx : List Byte} {v : Data}
    (hs : s.env.sched = .producer :: .rp :: .rp :: .rp :: ps) (hp : s.rp.phase = .idle) (hput : s.env.samplePut = none)
    (hreq : s.env.producer = .sample :: rest) (hr : s.cfg.row s.cfg.regScanResult = some row)
    (hrx : rx = deviceBytes s.env (1 + row.width.bytes)) (hv : v = readValue rx row.width.bytes) (n : Nat) :
    Host.Core.run core (n + 4) s = Host.Core.run core n { s with
      rp := { s.rp with
        phase := .idle, cs := 1#1, op := .read, reg := s.cfg.regScanResult, client := .sample
        resStatus := .ok, resValue := v
        history := s.rp.history ++ [.cs 0#1, .xfer (readFrame s.cfg row) rx, .cs 1#1] }
      env := { afterBytes s.env (1 + row.width.bytes) with producer := rest, sched := ps, samplePut := some v }
      responses := s.responses ++ [⟨.port .rp, .ok, .value v⟩] } :=
  (run_succ (step_startSample hs hp hput hreq hr) _).trans
    (run_sampleRead rfl rfl rfl rfl (by exact hr) (by exact hrx) hv n)

end

/-- Settles O51: the READ is accepted, the engine's three turns read the value, and the PUT of its element finds RB as the
SAMPLE found it. -/
theorem sampleStoresScanResult : Obligations.SampleStoresScanResult := by
  intro s row rest ps rx v e h hi hp hput hr hreq hs hrx hv he hl
  have hlen : rx.length = 1 + row.width.bytes := by rw [hrx, deviceBytes_length]
  refine ⟨fun hc => by rw [he, hv, elemOfValue_readValue hc hlen], ?_⟩
  obtain ⟨rb, hw, hexec⟩ := exec_put_of_length h hi hl
  obtain ⟨hread, hframe⟩ := slotWrite_slot hw
  have hrun := run_sampleUntilPut hs hp hput hreq hr hrx hv 1
  subst he
  have hfive := hrun.trans <| run_succ ((step_finishSample rfl rfl rfl (by exact hr)).trans
    (exec_put_of_slotWrite (by exact hi) (by exact hw))) 0
  refine ⟨_, _, rb.mem, hfive, hexec, rfl, ?_, hread, hframe⟩
  exact State.ext rfl (advanceHead_of_slotWrite h hw) rfl rfl (List.append_assoc ..)

end Sys2Proof.Machine
end

section
/-! SUPPORT. WRITE, READ and VERIFY through the engine: the refusal of a bad handle, the bracket CS(0), one frame, CS(1),
and what is returned (R140 to R143, R146, R147, R175). -/

namespace Sys2Proof.Machine

/-! ### A bad handle (R140) -/

/-- Settles O38: an idle engine answers `InvalidPointer` for a handle without a row, and does nothing else. -/
theorem invalidHandleReturnsInvalidPointer : Obligations.InvalidHandleReturnsInvalidPointer := by
  intro s reg hp hreg
  have hrefused (op : RpOp) (d : Data) :
      s.acceptRegOp .port op reg d = s.respond (.port .rp) .invalidPointer .none :=
    acceptRegOp_invalid ((rpBusy_eq_false _).2 hp) ((row_eq_none_iff _ _).2 hreg)
  exact ⟨fun _ => congrArg _ (hrefused ..), congrArg _ (hrefused ..), fun _ => congrArg _ (hrefused ..)⟩

/-! ### The bracket of one frame (R147, R175) -/

/-- The frame XFER sends for the operation in flight (R141 to R143). -/
def RpState.frame (c : Cfg) (rp : RpState) (row : RegRow) : List Byte :=
  match rp.op with
  | .write => writeFrame c row rp.data
  | _ => readFrame c row

/-- The value latched once the device has answered `rx`: WRITE discards the answer. -/
def RpState.valueLatched (rp : RpState) (row : RegRow) (rx : List Byte) : Data :=
  match rp.op with
  | .write => rp.resValue
  | _ => readValue rx row.width.bytes

/-- RP after the bracket of the operation in flight, the device having answered `rx`. -/
def RpState.bracketed (c : Cfg) (rp : RpState) (row : RegRow) (rx : List Byte) : RpState :=
  { rp with
    phase := .idle, cs := 1#1, resStatus := .ok, resValue := rp.valueLatched row rx
    history := rp.history ++ [.cs 0#1, .xfer (rp.frame c row) rx, .cs 1#1] }

/-- The state after the bracket of the operation in flight, nothing returned yet. -/
def State.bracketed (s : State) (row : RegRow) : State :=
  { s with
    rp := s.rp.bracketed s.cfg row (deviceBytes s.env (1 + row.width.bytes))
    env := afterBytes s.env (1 + row.width.bytes) }

/-- The state once the operation in flight has returned `Ok`. -/
def State.completed (s : State) (row : RegRow) : State :=
  (s.bracketed row).deliver s.rp.client .ok (okResult (s.bracketed row).rp)

@[simp] theorem frame_length (c : Cfg) (rp : RpState) (row : RegRow) :
    (rp.frame c row).length = 1 + row.width.bytes := by
  unfold RpState.frame
  split <;> simp

section
variable {s : State} {row : RegRow}

/-- XFER of any operation: its frame is sent and its value latched with `Ok` (R141 to R143). -/
theorem engineStep_xfer (hp : s.rp.phase = .xfer) (hr : s.cfg.row s.rp.reg = some row) :
    engineStep s = .next (((s.busXfer (s.rp.frame s.cfg row)).latch .ok
      (s.rp.valueLatched row (deviceBytes s.env (1 + row.width.bytes)))).setPhase .desel) := by
  cases hop : s.rp.op <;>
    simp [engineStep, hp, engineXfer, withRow, hr, hop, RpState.frame, RpState.valueLatched, valueRead]

/-- DESEL after a successful XFER releases chip-select and returns the operation's result (R79). -/
theorem engineStep_desel (hp : s.rp.phase = .desel) (hst : s.rp.resStatus = .ok) :
    engineStep s = .next (((s.busCs 1#1).setPhase .idle).deliver s.rp.client .ok (okResult s.rp)) := by
  simp only [engineStep, hp, engineDesel, latchedResult, hst, if_true]

/-- SEL, XFER and DESEL, one after the other, make the bracket. -/
theorem bracketed_eq (s : State) (row : RegRow) :
    (((((s.busCs 0#1).setPhase .xfer).busXfer (s.rp.frame s.cfg row)).latch .ok
      (s.rp.valueLatched row (deviceBytes s.env (1 + row.width.bytes)))).busCs 1#1).setPhase .idle =
      s.bracketed row := by
  apply State.ext
  case rp => apply RpState.ext <;> simp [State.bracketed, RpState.bracketed]
  all_goals simp [State.bracketed]

/-- The three steps of the engine from SEL to the response (R175). -/
theorem engine_bracket (hp : s.rp.phase = .sel) (hr : s.cfg.row s.rp.reg = some row) :
    ∃ t₁ t₂, engineStep s = .next t₁ ∧ t₁.rp.phase = .xfer ∧ t₁.rp.cs = 0#1 ∧
      engineStep t₁ = .next t₂ ∧ t₂.rp.phase = .desel ∧ t₂.rp.cs = 0#1 ∧
      engineStep t₂ = .next (s.completed row) := by
  refine ⟨_, _, engineStep_sel hp, rfl, rfl, engineStep_xfer rfl (by exact hr), rfl, rfl, ?_⟩
  rw [engineStep_desel rfl rfl, State.completed, ← bracketed_eq]
  rfl

theorem engineRun_bracket (hp : s.rp.phase = .sel) (hr : s.cfg.row s.rp.reg = some row) :
    engineRun 3 s = .next (s.completed row) := by
  obtain ⟨t₁, t₂, h₁, -, -, h₂, -, -, h₃⟩ := engine_bracket hp hr
  simp only [engineRun, h₁, h₂, h₃, andThen_next]

/-- An idle engine accepts an operation on a handle with a row (R140). -/
theorem acceptRegOp_of_idle (hp : s.rp.phase = .idle) {reg : Handle} (hr : s.cfg.row reg = some row) (cl : Client)
    (op : RpOp) (d : Data) : s.acceptRegOp cl op reg d = (s.loadOp cl op reg d).setPhase .sel :=
  acceptRegOp_valid ((rpBusy_eq_false _).2 hp) hr

variable {i : Instr} {op : RpOp} {reg : Handle} {d : Data}

/-- WRITE, READ or VERIFY of the port is accepted by an idle engine. -/
theorem exec_accepted (hi : exec i s = .next (s.acceptRegOp .port op reg d)) (hp : s.rp.phase = .idle)
    (hr : s.cfg.row reg = some row) : exec i s = .next ((s.loadOp .port op reg d).setPhase .sel) := by
  rw [hi, acceptRegOp_of_idle hp hr]

/-- An accepted operation runs to its response in the three steps of its bracket. -/
theorem run_accepted (hi : exec i s = .next (s.acceptRegOp .port op reg d)) (hp : s.rp.phase = .idle)
    (hr : s.cfg.row reg = some row) :
    andThen (exec i s) (engineRun 3) = .next (((s.loadOp .port op reg d).setPhase .sel).completed row) := by
  rw [exec_accepted hi hp hr, andThen_next]
  exact engineRun_bracket rfl hr

end

/-- Settles O39: WRITE is accepted, and the bracket holds its write frame. -/
theorem writeRunsBracketedFrame : Obligations.WriteRunsBracketedFrame := by
  intro s reg data row hp hr
  obtain ⟨t₁, t₂, h₁, hp₁, hcs₁, h₂, hp₂, hcs₂, h₃⟩ :=
    engine_bracket (s := (s.loadOp .port .write reg data).setPhase .sel) rfl hr
  exact ⟨_, t₁, t₂, _, exec_accepted rfl hp hr, rfl, rfl, h₁, hp₁, hcs₁, h₂, hp₂, hcs₂, h₃, rfl⟩

/-- Settles O40: READ is accepted, and the bracket holds its read frame and latches the answer's value. -/
theorem readReturnsDeviceValue : Obligations.ReadReturnsDeviceValue := by
  intro s reg row hp hr
  obtain ⟨t₁, t₂, h₁, hp₁, hcs₁, h₂, hp₂, hcs₂, h₃⟩ :=
    engine_bracket (s := (s.loadOp .port .read reg s.rp.data).setPhase .sel) rfl hr
  exact ⟨_, t₁, t₂, _, _, exec_accepted rfl hp hr, rfl, rfl, h₁, hp₁, hcs₁, h₂, hp₂, hcs₂, h₃, rfl, rfl⟩

/-- Settles O41: VERIFY's bracket is that of a READ; `okResult` compares all 32 bits. -/
theorem verifyComparesAllBits : Obligations.VerifyComparesAllBits := by
  intro s reg expected row hp hr
  exact ⟨_, _, _, exec_accepted rfl hp hr, rfl, engineRun_bracket rfl hr, rfl, rfl⟩

/-! ### Reading back what was written (R146) -/

/-- The bytes of a value sent have as their value that value cut to the width (R74, R76). -/
theorem bigEndianValue_bigEndianBytes (w : Nat) (d : Data) :
    (bigEndianValue (bigEndianBytes w d)).toNat = d.toNat % 2 ^ (8 * w) := by
  induction w with
  | zero => simp [bigEndianBytes, bigEndianValue, Nat.mod_one]
  | succ w ih =>
    have hsplit : d.toNat % 2 ^ (8 * (w + 1)) =
        d.toNat / 2 ^ (8 * w) % 2 ^ 8 * 2 ^ (8 * w) + d.toNat % 2 ^ (8 * w) := by
      rw [Nat.mul_succ, Nat.pow_add, Nat.mod_mul, Nat.add_comm, Nat.mul_comm]
    rw [bigEndianBytes, bigEndianValue_cons_toNat, ih, bigEndianBytes_length, BitVec.toNat_setWidth,
      BitVec.toNat_ushiftRight, Nat.shiftRight_eq_div_pow, ← hsplit]
    exact Nat.mod_eq_of_lt ((Nat.mod_le ..).trans_lt d.isLt)

/-- An answer that echoes the data bytes of a write frame has the value written, cut to the width. -/
theorem readValue_echo (c : Cfg) (row : RegRow) (d : Data) (x : Byte) :
    (readValue (x :: (writeFrame c row d).drop 1) row.width.bytes).toNat = d.toNat % 2 ^ (8 * row.width.bytes) := by
  have hbytes : ((x :: (writeFrame c row d).drop 1).drop 1).take row.width.bytes =
      bigEndianBytes row.width.bytes d := by
    simp [writeFrame]
  rw [readValue, hbytes, bigEndianValue_bigEndianBytes]

/-- Scripted answers that follow `a` are given after as many bytes as `a` has. -/
theorem deviceBytes_afterBytes_of_answers {env : EnvState} {a b rest : List Byte} {n : Nat} (ha : a.length = n)
    (hb : b.length = n) (h : env.answers = a ++ b ++ rest) : deviceBytes (afterBytes env n) n = b := by
  have hdrop : (afterBytes env n).answers = b ++ rest := by simp [afterBytes, h, ← ha]
  rw [deviceBytes_of_le (by simp [hdrop, hb]), hdrop, ← hb, List.take_left]

/-- Settles O42: the READ's answer is the script's echo, whose value is the one written. -/
theorem echoedWriteReadsBack : Obligations.EchoedWriteReadsBack := by
  intro s reg d row a x rest hp hr ha hanswers
  have hecho : deviceBytes (afterBytes s.env (1 + row.width.bytes)) (1 + row.width.bytes) =
      x :: (writeFrame s.cfg row d).drop 1 :=
    deviceBytes_afterBytes_of_answers ha (by simp [writeFrame, Nat.add_comm]) hanswers
  have hwrite := run_accepted (i := .write reg d) rfl hp hr
  have hread := run_accepted (s := ((s.loadOp .port .write reg d).setPhase .sel).completed row) (i := .read reg)
    rfl rfl hr
  exact ⟨_, _, _, hwrite, hread, List.append_assoc s.responses _ [⟨.port .rp, .ok, .value (readValue _ _)⟩],
    hecho ▸ readValue_echo s.cfg row d x⟩

end Sys2Proof.Machine
end

section
/-! SUPPORT. WRITE_CHECKED step by step: its WRITE, the three turns of the engine, its VERIFY, three turns more (R144). -/

namespace Sys2Proof.Machine

section
variable {s : State} {ps : List Port} {row : RegRow} {reg : Handle} {d : Data}

/-- A busy engine served three times brings the operation in flight from SEL to its response. -/
theorem run_bracket (hs : s.env.sched = .rp :: .rp :: .rp :: ps) (hp : s.rp.phase = .sel)
    (hr : s.cfg.row s.rp.reg = some row) (n : Nat) :
    Host.Core.run core (n + 3) s = Host.Core.run core n ((s.withSched ps).completed row) := by
  refine (run_engine hs (by simp [hp]) (engineStep_sel (by exact hp)) (n + 2)).trans ?_
  refine (run_engine rfl (by simp) (engineStep_xfer rfl (by exact hr)) (n + 1)).trans ?_
  refine (run_engine rfl (by simp) (engineStep_desel rfl rfl) n).trans (congrArg _ ?_)
  rw [State.completed, ← bracketed_eq]
  rfl

/-- The RP unit served with a WRITE_CHECKED presented: its WRITE goes to the engine. -/
theorem step_startWriteChecked {rest : List RpReq} (hs : s.env.sched = .rp :: ps) (hp : s.rp.phase = .idle)
    (hv : s.env.checkVerify = none) (hreq : s.env.rp = .writeChecked reg d :: rest) :
    step s = .next (State.acceptRegOp { s with env := { s.env with rp := rest, sched := ps } }
      .checkWrite .write reg d) := by
  have hi : rpBusy s.rp = false := (rpBusy_eq_false _).2 hp
  simp [step_of_sched hs, serve, serveRp, hi, hv, hreq, startWriteChecked]

/-- The RP unit served after the WRITE has returned `Ok`: the VERIFY goes to the engine. -/
theorem step_finishWriteChecked (hs : s.env.sched = .rp :: ps) (hp : s.rp.phase = .idle)
    (hv : s.env.checkVerify = some (reg, d)) :
    step s = .next (State.acceptRegOp { s with env := { s.env with sched := ps, checkVerify := none } }
      .checkVerify .verify reg d) := by
  have hi : rpBusy s.rp = false := (rpBusy_eq_false _).2 hp
  simp [step_of_sched hs, serve, serveRp, hi, hv, finishWriteChecked]

/-- The half of a WRITE_CHECKED that a step has presented to an idle engine, up to its response. -/
theorem run_presented {t : State} {cl : Client} {op : RpOp} (ht : step s = .next (t.acceptRegOp cl op reg d))
    (hp : t.rp.phase = .idle) (hr : t.cfg.row reg = some row) (hs : t.env.sched = .rp :: .rp :: .rp :: ps) (n : Nat) :
    Host.Core.run core (n + 4) s =
      Host.Core.run core n ((((t.loadOp cl op reg d).setPhase .sel).withSched ps).completed row) := by
  rw [acceptRegOp_of_idle hp hr] at ht
  exact (run_succ ht (n + 3)).trans (run_bracket (by exact hs) rfl (by exact hr) n)

/-- A WRITE_CHECKED presented on an idle engine, up to its VERIFY: the WRITE's response is returned and the operands are
kept. -/
theorem run_checkedWrite {rest : List RpReq} (hs : s.env.sched = .rp :: .rp :: .rp :: .rp :: ps)
    (hp : s.rp.phase = .idle) (hv : s.env.checkVerify = none) (hreq : s.env.rp = .writeChecked reg d :: rest)
    (hr : s.cfg.row reg = some row) (n : Nat) :
    Host.Core.run core (n + 4) s = Host.Core.run core n { s with
      rp := { s.rp with
        phase := .idle, cs := 1#1, op := .write, reg := reg, data := d, client := .checkWrite, resStatus := .ok
        history := s.rp.history ++
          [.cs 0#1, .xfer (writeFrame s.cfg row d) (deviceBytes s.env (1 + row.width.bytes)), .cs 1#1] }
      env := { afterBytes s.env (1 + row.width.bytes) with rp := rest, sched := ps, checkVerify := some (reg, d) }
      responses := s.responses ++ [⟨.port .rp, .ok, .none⟩] } :=
  run_presented (step_startWriteChecked hs hp hv hreq) (by exact hp) (by exact hr) rfl n

/-- VERIFY hands its comparison on as the status of the WRITE_CHECKED (R144). -/
theorem deliver_checkVerify (s : State) (p : Prop) [Decidable p] :
    s.deliver .checkVerify .ok (.bit (decide p)) = (s.respond (.port .rp) .ok (.bit (decide p))).respond .writeChecked
      (if p then .ok else .unsuccessfulRegisterWrite) .none := by
  by_cases h : p <;> simp [State.deliver, State.wake, h]

/-- The VERIFY that follows, up to the response of the WRITE_CHECKED. -/
theorem run_checkedVerify {rx : List Byte} {v : Data} (hs : s.env.sched = .rp :: .rp :: .rp :: .rp :: ps)
    (hp : s.rp.phase = .idle) (hv : s.env.checkVerify = some (reg, d)) (hr : s.cfg.row reg = some row)
    (hrx : rx = deviceBytes s.env (1 + row.width.bytes)) (hval : v = readValue rx row.width.bytes) (n : Nat) :
    Host.Core.run core (n + 4) s = Host.Core.run core n { s with
      rp := { s.rp with
        phase := .idle, cs := 1#1, op := .verify, reg := reg, data := d, client := .checkVerify, resStatus := .ok
        resValue := v
        history := s.rp.history ++ [.cs 0#1, .xfer (readFrame s.cfg row) rx, .cs 1#1] }
      env := { afterBytes s.env (1 + row.width.bytes) with sched := ps, checkVerify := none }
      responses := s.responses ++ [⟨.port .rp, .ok, .bit (decide (v = d))⟩,
        ⟨.writeChecked, if v = d then .ok else .unsuccessfulRegisterWrite, .none⟩] } := by
  refine (run_presented (step_finishWriteChecked hs hp hv) (by exact hp) (by exact hr) rfl n).trans (congrArg _ ?_)
  subst hrx hval
  exact State.ext rfl rfl rfl rfl <|
    (congrArg State.responses (deliver_checkVerify _ (readValue _ _ = d))).trans (List.append_assoc ..)

end

/-- Settles O52: a bad handle is refused by the acceptance of the WRITE; else the WRITE and the VERIFY each run their
bracket, the VERIFY on the answers after the WRITE's. -/
theorem writeCheckedComparesReadBack : Obligations.WriteCheckedComparesReadBack := by
  intro s reg d rest ps hp hv hreq hs
  refine ⟨fun hr => ?_, fun row rx v hr hrx hval => ?_⟩
  · have hstart := step_startWriteChecked hs hp hv hreq
    rw [acceptRegOp_invalid ((rpBusy_eq_false _).2 (by exact hp)) (by exact hr)] at hstart
    refine ⟨_, hstart, hv, ?_⟩
    apply State.ext <;> simp [State.deliver, State.wake, hv]
  · have hwrite := run_checkedWrite hs hp hv hreq hr 4
    have hverify := hwrite.trans (run_checkedVerify rfl rfl rfl (by exact hr) (by exact hrx) hval 0)
    refine ⟨_, hverify, State.ext rfl rfl ?_ ?_ (List.append_assoc ..)⟩
    · exact RpState.ext rfl rfl rfl rfl rfl rfl rfl rfl rfl (List.append_assoc ..)
    · rw [← afterBytes_add s.env (1 + row.width.bytes)]
      rfl

end Sys2Proof.Machine
end

section
/-! SUPPORT. The access modes of the register table are metadata: every meaning of the model commutes with replacing them
(R148). -/

namespace Sys2Proof.Machine

/-- Replacing the access modes before `f` is replacing them after it: `f` reads none of them. -/
def IgnoresAccess (f : State → Host.Outcome State Fault Refusal) : Prop :=
  ∀ (a : Access) (s : State), f (setAccess a s) = mapNext (setAccess a) (f s)

section
variable (a : Access) (s : State)

@[simp] theorem setAccess_rb : (setAccess a s).rb = s.rb := rfl
@[simp] theorem setAccess_rp : (setAccess a s).rp = s.rp := rfl
@[simp] theorem setAccess_env : (setAccess a s).env = s.env := rfl

@[simp] theorem setAccess_row (reg : Handle) :
    (setAccess a s).cfg.row reg = (s.cfg.row reg).map fun row => { row with access := a } :=
  List.getElem?_map ..

/-! ### Going on from a next state -/

theorem mapNext_ite (p : Prop) [Decidable p] (o o' : Host.Outcome State Fault Refusal) :
    mapNext (setAccess a) (if p then o else o') = if p then mapNext (setAccess a) o else mapNext (setAccess a) o' :=
  apply_ite ..

theorem mapNext_andThen {α : Type} (o : Host.Outcome α Fault Refusal) (f : α → Host.Outcome State Fault Refusal) :
    mapNext (setAccess a) (andThen o f) = andThen o fun x => mapNext (setAccess a) (f x) := by
  cases o <;> rfl

/-! ### RP -/

theorem deliver_setAccess (cl : Client) (st : Status) (res : Result) :
    (setAccess a s).deliver cl st res = setAccess a (s.deliver cl st res) := by
  cases cl <;> simp only [State.deliver, State.wake]
  case port => rfl
  case sample => cases res <;> rfl
  case checkWrite => split <;> rfl
  case checkVerify => rfl

theorem acceptRegOp_setAccess (cl : Client) (op : RpOp) (reg : Handle) (d : Data) :
    (setAccess a s).acceptRegOp cl op reg d = setAccess a (s.acceptRegOp cl op reg d) := by
  cases hb : rpBusy s.rp with
  | true => rw [acceptRegOp_busy hb, acceptRegOp_busy (by exact hb)]
  | false =>
    cases hr : s.cfg.row reg with
    | none => rw [acceptRegOp_invalid hb hr, acceptRegOp_invalid (by exact hb) (by simp [hr]), deliver_setAccess]
    | some row =>
      rw [acceptRegOp_valid hb hr, acceptRegOp_valid (s := setAccess a s) (by exact hb) (by simp [hr]; rfl)]
      rfl

theorem acceptFlash_setAccess (d : Data) : (setAccess a s).acceptFlash d = setAccess a (s.acceptFlash d) := by
  cases hb : rpBusy s.rp with
  | true => rw [acceptFlash_busy hb, acceptFlash_busy (by exact hb)]
  | false => rw [acceptFlash_idle hb, acceptFlash_idle (by exact hb)]; rfl

/-- The engine uses a row for its address and its width only. -/
theorem withRow_setAccess (reg : Handle) {f g : RegRow → State}
    (h : ∀ row, g { row with access := a } = setAccess a (f row)) :
    withRow (setAccess a s) reg g = mapNext (setAccess a) (withRow s reg f) := by
  cases hr : s.cfg.row reg with
  | none => simp only [withRow, setAccess_row, hr]; rfl
  | some row => simp only [withRow, setAccess_row, hr, Option.map_some, h]; rfl

end

theorem engineXfer_ignoresAccess : IgnoresAccess engineXfer := fun a s =>
  withRow_setAccess a s _ fun row => by
    cases hop : s.rp.op <;> simp only [setAccess_rp, hop] <;> rfl

theorem engineFPoll_ignoresAccess : IgnoresAccess engineFPoll := fun a s =>
  withRow_setAccess a s _ fun row => by
    have hbusy : deviceBusy (setAccess a s).cfg (valueRead (setAccess a s) { row with access := a }) =
      deviceBusy s.cfg (valueRead s row) := rfl
    have hlimit : pollLimitReached (setAccess a s).cfg = pollLimitReached s.cfg := rfl
    simp only [hbusy, hlimit, setAccess_rp]
    split_ifs <;> rfl

theorem engineStep_ignoresAccess : IgnoresAccess engineStep := fun a s => by
  cases hp : s.rp.phase <;> simp only [engineStep, setAccess_rp, hp]
  case idle | sel | fSel => rfl
  case desel | fDesel => exact congrArg _ (deliver_setAccess a ((s.busCs 1#1).setPhase .idle) ..)
  case xfer => exact engineXfer_ignoresAccess a s
  case fPoll => exact engineFPoll_ignoresAccess a s
  case fAddr | fMode | fData => exact withRow_setAccess a s _ fun row => rfl

/-! ### RB: of the configuration only widths and limits are read -/

theorem execInit_ignoresAccess (capacity elementSize : Nat) : IgnoresAccess (execInit capacity elementSize) :=
  fun a s => by
    rw [execInit, execInit]
    simp only [mapNext_ite]
    rfl

theorem execPut_ignoresAccess (e : Element) : IgnoresAccess (execPut e) := fun a s => by
  rw [execPut, execPut]
  simp only [mapNext_ite, mapNext_andThen]
  rfl

theorem execGet_ignoresAccess : IgnoresAccess execGet := fun a s => by
  rw [execGet, execGet]
  simp only [mapNext_ite, mapNext_andThen]
  rfl

theorem execGetMany_ignoresAccess (count : Nat) : IgnoresAccess (execGetMany count) := fun a s => by
  rw [execGetMany, execGetMany]
  simp only [mapNext_ite, mapNext_andThen]
  rfl

/-! ### Operations and turns -/

theorem exec_ignoresAccess (i : Instr) : IgnoresAccess (exec i) := fun a s => by
  cases i with
  | init capacity elementSize => exact execInit_ignoresAccess capacity elementSize a s
  | put element => exact execPut_ignoresAccess element a s
  | get => exact execGet_ignoresAccess a s
  | getMany count => exact execGetMany_ignoresAccess count a s
  | isEmpty | isFull | destroy | flashWrite => rfl
  | write | read | verify => exact congrArg _ (acceptRegOp_setAccess ..)
  | flashRead => exact congrArg _ (acceptFlash_setAccess ..)

theorem issue_ignoresAccess (p : Port) (w : Nat) : IgnoresAccess (issue p w) := fun a s => by
  have hd : decode (setAccess a s).cfg s.rb.elementSize w = decode s.cfg s.rb.elementSize w := rfl
  simp only [issue, setAccess_rb, hd]
  cases decode s.cfg s.rb.elementSize w with
  | reserved op => rfl
  | instr i =>
    dsimp only
    split_ifs
    · exact exec_ignoresAccess i a s
    · rfl

/-- The width of the scan-result register is not its access mode. -/
theorem scanWidth_setAccess (a : Access) (s : State) : scanWidth (setAccess a s).cfg = scanWidth s.cfg := by
  have hr : (setAccess a s).cfg.row (setAccess a s).cfg.regScanResult = _ := setAccess_row a s s.cfg.regScanResult
  cases hrow : s.cfg.row s.cfg.regScanResult <;> simp [scanWidth, hr, hrow]

theorem finishSample_ignoresAccess (v : Data) : IgnoresAccess (finishSample v) := fun a s => by
  rw [finishSample, scanWidth_setAccess]
  exact execPut_ignoresAccess _ a { s with env := { s.env with samplePut := none } }

theorem serveProducer_ignoresAccess : IgnoresAccess serveProducer := fun a s => by
  have hs : sampling (setAccess a s) = sampling s := rfl
  rw [serveProducer, serveProducer, hs, mapNext_ite]
  refine ite_congr rfl (fun _ => rfl) fun _ => ?_
  cases hput : s.env.samplePut with
  | some v =>
    simp only [setAccess_env, hput]
    exact finishSample_ignoresAccess v a s
  | none =>
    cases hreq : s.env.producer with
    | nil =>
      simp only [setAccess_env, hput, hreq]
      rfl
    | cons req rest =>
      cases req with
      | word w =>
        simp only [setAccess_env, hput, hreq]
        exact issue_ignoresAccess .producer w a { s with env := { s.env with producer := rest, samplePut := none } }
      | sample =>
        simp only [setAccess_env, hput, hreq, mapNext_ite]
        refine ite_congr rfl (fun _ => rfl) fun _ => ?_
        exact congrArg _
          (acceptRegOp_setAccess a { s with env := { s.env with producer := rest, samplePut := none } } ..)

theorem serveConsumer_ignoresAccess : IgnoresAccess serveConsumer := fun a s => by
  cases hw : s.env.consumer with
  | nil =>
    simp only [serveConsumer, setAccess_env, hw]
    rfl
  | cons w rest =>
    rw [serveConsumer_word hw, serveConsumer_word (s := setAccess a s) hw]
    exact issue_ignoresAccess .consumer w a { s with env := { s.env with consumer := rest } }

theorem serveRp_ignoresAccess : IgnoresAccess serveRp := fun a s => by
  rw [serveRp, serveRp, mapNext_ite]
  refine ite_congr rfl (fun _ => engineStep_ignoresAccess a s) fun _ => ?_
  cases hv : s.env.checkVerify with
  | some operands =>
    simp only [setAccess_env, hv]
    exact congrArg _ (acceptRegOp_setAccess a { s with env := { s.env with checkVerify := none } } ..)
  | none =>
    cases hreq : s.env.rp with
    | nil =>
      simp only [setAccess_env, hv, hreq]
      rfl
    | cons req rest =>
      simp only [setAccess_env, hv, hreq]
      cases req with
      | word w => exact issue_ignoresAccess .rp w a { s with env := { s.env with rp := rest, checkVerify := none } }
      | writeChecked reg d =>
        exact congrArg _ (acceptRegOp_setAccess a { s with env := { s.env with rp := rest, checkVerify := none } } ..)

theorem serve_ignoresAccess (p : Port) : IgnoresAccess (serve p) := by
  cases p with
  | producer => exact serveProducer_ignoresAccess
  | consumer => exact serveConsumer_ignoresAccess
  | rp => exact serveRp_ignoresAccess

theorem afterTurn_setAccess (a : Access) (s : State) : afterTurn (setAccess a s) = setAccess a (afterTurn s) := by
  have hready : readyPorts (setAccess a s) = readyPorts s := rfl
  simp only [afterTurn, setAccess_env, hready]
  split
  · rfl
  · split <;> rfl

/-- Settles O43: the turn does not depend on the configuration, and serving any port reads no access mode. -/
theorem accessModeIsNotRead : Obligations.AccessModeIsNotRead := by
  intro a s
  have hturn : nextTurn (setAccess a s) = nextTurn s := rfl
  rw [step, hturn, afterTurn_setAccess, step, serve_ignoresAccess]

end Sys2Proof.Machine
end

section
/-! SUPPORT. The engine between its turns: what is refused, what a busy engine holds, and what RP leaves alone (R174, R176,
R177, R178, R226). -/

namespace Sys2Proof.Machine

/-- Settles O5: the meaning of FLASH_WRITE reads neither its operand nor the state. -/
theorem flashWriteIsRefused : Obligations.FlashWriteIsRefused := fun _ _ => rfl

/-- Settles O44: an acceptance and a row of the phase table each leave RB and the configuration. -/
theorem rpOperationsLeaveRb : Obligations.RpOperationsLeaveRb := fun _ _ _ => ⟨exec_rp_frame, engineStep_frame⟩

/-! ### The requests presented on the RP port -/

section
variable {s t : State}

theorem wake_rpRequests (s : State) (cl : Client) (st : Status) (res : Result) :
    (s.wake cl st res).env.rp = s.env.rp := by
  cases cl with
  | port | checkVerify => rfl
  | sample => cases res <;> rfl
  | checkWrite =>
    simp only [State.wake]
    split_ifs <;> rfl

theorem deliver_rpRequests (s : State) (cl : Client) (st : Status) (res : Result) :
    (s.deliver cl st res).env.rp = s.env.rp :=
  wake_rpRequests ..

/-- The engine takes no request: what is presented on the RP port stays presented. -/
theorem engineStep_rpRequests (h : engineStep s = .next t) : t.env.rp = s.env.rp := by
  cases hp : s.rp.phase <;> simp only [engineStep, hp] at h
  case idle | sel | fSel => exact Host.Outcome.next.inj h ▸ rfl
  case desel | fDesel => exact Host.Outcome.next.inj h ▸ deliver_rpRequests ..
  case xfer =>
    obtain ⟨row, tx, v, -, -, -, rfl⟩ := engineXfer_next h
    rfl
  case fAddr | fMode | fData =>
    obtain ⟨row, -, rfl⟩ := withRow_eq_next.1 h
    rfl
  case fPoll =>
    obtain ⟨row, -, ⟨-, rfl⟩ | ⟨-, -, rfl⟩ | ⟨-, -, rfl⟩⟩ := engineFPoll_next h <;> rfl

/-! ### The turns of a busy engine -/

/-- Serving the RP unit while the engine is busy is one step of the engine. -/
theorem step_busy_engine (hp : s.rp.phase ≠ .idle) (hturn : nextTurn s = .rp) : step s = engineStep (afterTurn s) := by
  rw [step, hturn, serve, serveRp, if_pos ((rpBusy_eq_true _).2 (by simpa using hp))]

/-- Serving another port does not move a busy engine: RB operations leave RP, and a READ presented is held. -/
theorem step_busy_otherPort (hp : s.rp.phase ≠ .idle) (hturn : nextTurn s ≠ .rp) (h : step s = .next t) :
    t.rp = s.rp := by
  obtain ⟨u, hb, rfl | ⟨i, hi, -, he⟩ | ⟨hrp, -, -⟩ | ⟨cl, op, reg, d, -, rfl⟩⟩ := step_cases h
  · exact hb.rp
  · obtain ⟨rb, st, res, rfl⟩ := exec_rb_next (hi ▸ hturn) he
    exact hb.rp
  · exact absurd hrp hturn
  · rw [acceptRegOp_busy ((rpBusy_eq_true _).2 (hb.rp ▸ hp))]
    exact hb.rp

/-- A SAMPLE presented while the engine is busy stays where it is (R226). -/
theorem serveProducer_sample_busy {rest : List ProducerReq} (hp : rpBusy s.rp = true) (hput : s.env.samplePut = none)
    (hreq : s.env.producer = .sample :: rest) : serveProducer s = .next s := by
  simp [serveProducer, hp, hput, hreq]

end

/-- Settles O8: an acceptance by a busy engine changes nothing, and its turn is a step of the engine, which takes no
request. -/
theorem busyEngineHoldsRequests : Obligations.BusyEngineHoldsRequests := by
  intro s hp
  have hbusy := (rpBusy_eq_true _).2 hp
  refine ⟨fun _ _ => congrArg _ (acceptRegOp_busy hbusy), fun _ => congrArg _ (acceptRegOp_busy hbusy),
    fun _ _ => congrArg _ (acceptRegOp_busy hbusy), fun _ => congrArg _ (acceptFlash_busy hbusy _), fun hturn => ?_⟩
  have hstep := step_busy_engine hp hturn
  refine ⟨hstep, fun t ht => ?_⟩
  rw [engineStep_rpRequests (hstep ▸ ht), afterTurn_rpRequests]

/-- Settles O9: agent P does not wait for the engine, so its PUT runs as any word presented; its SAMPLE is held. -/
theorem busyEngineHoldsSampleNotPut : Obligations.BusyEngineHoldsSampleNotPut := by
  intro s rest hp hclient hput hturn
  refine ⟨fun hreq => ?_, fun w e hreq hd => ?_⟩
  · rw [step, hturn, serve]
    exact serveProducer_sample_busy ((rpBusy_eq_true _).2 (by simpa using hp)) (by simpa using hput) (by simpa using hreq)
  · have hs : sampling s = false := by simp [sampling, hclient]
    obtain ⟨-, hproducer, -⟩ := stepRunsPresentedOperation s w (.put e) hd hturn
    exact hproducer rest rfl hreq hs hput

end Sys2Proof.Machine
end

section
/-! SUPPORT. The phase table (R175): one equation per row, and how the engine leaves F_POLL (R171, R172, R177). -/

namespace Sys2Proof.Machine

/-- The poll limit of R172 is reached: there is one, and it is at most the number of status reads. -/
theorem pollLimitReached_iff (c : Cfg) (n : Nat) : pollLimitReached c n = true ↔ ∃ limit ∈ c.pollLimit, limit ≤ n := by
  cases h : c.pollLimit <;> simp [pollLimitReached, h]

theorem frame_eq_ite (c : Cfg) (rp : RpState) (row : RegRow) :
    rp.frame c row = if rp.op = .write then writeFrame c row rp.data else readFrame c row := by
  cases h : rp.op <;> simp [RpState.frame, h]

section
variable {s : State} {row : RegRow}

/-- DESEL and F_DESEL release chip-select and return what is latched (R79). -/
theorem engineStep_release (hp : s.rp.phase = .desel ∨ s.rp.phase = .fDesel) :
    engineStep s = .next (((s.busCs 1#1).setPhase .idle).deliver s.rp.client s.rp.resStatus (latchedResult s.rp)) := by
  obtain hp | hp := hp <;> simp only [engineStep, hp, engineDesel]

theorem engineStep_fSel (hp : s.rp.phase = .fSel) : engineStep s = .next ((s.busCs 0#1).setPhase .fAddr) := by
  simp only [engineStep, hp, engineFSel]

theorem engineStep_fAddr (hp : s.rp.phase = .fAddr) (hr : s.cfg.row s.cfg.regFlashAddr = some row) :
    engineStep s = .next ((s.busXfer (writeFrame s.cfg row s.rp.data)).setPhase .fMode) := by
  simp only [engineStep, hp, engineFAddr, withRow, hr, exchangeWrite_eq]

theorem engineStep_fMode (hp : s.rp.phase = .fMode) (hr : s.cfg.row s.cfg.regFlashMode = some row) :
    engineStep s = .next ((s.busXfer (writeFrame s.cfg row s.cfg.modeCopyToOutput)).setPhase .fPoll) := by
  simp only [engineStep, hp, engineFMode, withRow, hr, exchangeWrite_eq]

/-- The status read that F_POLL performs and counts (R171). -/
def State.polled (s : State) (row : RegRow) : State :=
  (s.busXfer (readFrame s.cfg row)).setPollCnt (s.rp.pollCnt + 1)

/-- A clear busy bit ends the polling (R171). -/
theorem engineStep_fPoll_clear (hp : s.rp.phase = .fPoll) (hr : s.cfg.row s.cfg.regStatus = some row)
    (hb : deviceBusy s.cfg (valueRead s row) = false) : engineStep s = .next ((s.polled row).setPhase .fData) := by
  simp [engineStep, hp, engineFPoll, withRow, hr, hb, State.polled]

/-- A set busy bit below the limit polls again (R171). -/
theorem engineStep_fPoll_busy (hp : s.rp.phase = .fPoll) (hr : s.cfg.row s.cfg.regStatus = some row)
    (hb : deviceBusy s.cfg (valueRead s row) = true) (hl : pollLimitReached s.cfg (s.rp.pollCnt + 1) = false) :
    engineStep s = .next ((s.polled row).setPhase .fPoll) := by
  simp [engineStep, hp, engineFPoll, withRow, hr, hb, hl, State.polled]

/-- A set busy bit at the limit times out (R172). -/
theorem engineStep_fPoll_limit (hp : s.rp.phase = .fPoll) (hr : s.cfg.row s.cfg.regStatus = some row)
    (hb : deviceBusy s.cfg (valueRead s row) = true) (hl : pollLimitReached s.cfg (s.rp.pollCnt + 1) = true) :
    engineStep s = .next (((s.polled row).latch .timeout s.rp.resValue).setPhase .fDesel) := by
  simp [engineStep, hp, engineFPoll, withRow, hr, hb, hl, State.polled]

theorem engineStep_fData (hp : s.rp.phase = .fData) (hr : s.cfg.row s.cfg.regFlashDataOut = some row) :
    engineStep s = .next (((s.busXfer (readFrame s.cfg row)).latch .ok (valueRead s row)).setPhase .fDesel) := by
  simp only [engineStep, hp, engineFData, withRow, hr, exchangeRead_eq]

/-- F_POLL has a step, which performs and counts one status read and goes to the phase that its answer and the limit say. -/
theorem engineStep_fPoll (hp : s.rp.phase = .fPoll) (hr : s.cfg.row s.cfg.regStatus = some row) :
    ∃ t, engineStep s = .next t ∧ t.rp.pollCnt = s.rp.pollCnt + 1 ∧
      t.rp.history = s.rp.history ++ [.xfer (readFrame s.cfg row) (deviceBytes s.env (readFrame s.cfg row).length)] ∧
      t.rp.phase = if deviceBusy s.cfg (valueRead s row) = false then .fData
        else if pollLimitReached s.cfg (s.rp.pollCnt + 1) = true then .fDesel else .fPoll := by
  cases hb : deviceBusy s.cfg (valueRead s row) with
  | false => exact ⟨_, engineStep_fPoll_clear hp hr hb, rfl, rfl, rfl⟩
  | true =>
    cases hl : pollLimitReached s.cfg (s.rp.pollCnt + 1) with
    | false => exact ⟨_, engineStep_fPoll_busy hp hr hb hl, rfl, rfl, rfl⟩
    | true => exact ⟨_, engineStep_fPoll_limit hp hr hb hl, rfl, rfl, rfl⟩

end

/-- Settles O46: every handle the engine uses has a row, and each phase has its equation. -/
theorem engineFollowsPhaseTable : Obligations.EngineFollowsPhaseTable := by
  intro s hc h
  obtain ⟨⟨rowA, hA⟩, ⟨rowM, hM⟩, ⟨rowS, hS⟩, ⟨rowD, hD⟩⟩ := wf_rows hc
  cases hp : s.rp.phase
  case idle => exact ⟨s, by simp only [engineStep, hp], rfl⟩
  case sel => exact ⟨_, engineStep_sel hp, rfl, rfl⟩
  case xfer =>
    obtain ⟨row, hr⟩ := (validHandle_iff _ _).1 (h.handle (.inr hp))
    exact ⟨_, engineStep_xfer hp hr, rfl, row, _, hr, by rw [← frame_eq_ite]; rfl⟩
  case desel => exact ⟨_, engineStep_release (.inl hp), by simp⟩
  case fSel => exact ⟨_, engineStep_fSel hp, rfl, rfl⟩
  case fAddr => exact ⟨_, engineStep_fAddr hp hA, rfl, rowA, _, hA, rfl⟩
  case fMode => exact ⟨_, engineStep_fMode hp hM, rfl, rowM, _, hM, rfl⟩
  case fPoll =>
    obtain ⟨t, ht, hcnt, hhist, hphase⟩ := engineStep_fPoll hp hS
    simp only [pollLimitReached_iff] at hphase
    exact ⟨t, ht, hcnt, rowS, _, hS, hhist, hphase⟩
  case fData => exact ⟨_, engineStep_fData hp hD, rfl, rowD, _, hD, rfl⟩
  case fDesel => exact ⟨_, engineStep_release (.inr hp), by simp⟩

/-- Settles O47: another port's turn does not move the engine, and the engine's own turn is the status read. -/
theorem pollLeavesOnlyByStatusRead : Obligations.PollLeavesOnlyByStatusRead := by
  intro s t hp h
  have hbusy : s.rp.phase ≠ .idle := by simp [hp]
  by_cases hturn : nextTurn s = .rp
  · rw [step_busy_engine hbusy hturn] at h
    have hpoll : engineFPoll (afterTurn s) = .next t := by simpa [engineStep, hp] using h
    obtain ⟨row, hr, hcase⟩ := engineFPoll_next hpoll
    rw [afterTurn_cfg] at hr hcase
    rw [afterTurn_rp] at hcase
    obtain ⟨hb, rfl⟩ | ⟨hb, hl, rfl⟩ | ⟨hb, hl, rfl⟩ := hcase
    · exact .inr ⟨hturn, rfl, row, hr, .inr (.inl ⟨rfl, hb⟩)⟩
    · exact .inr ⟨hturn, rfl, row, hr, .inl ⟨rfl, hb, hl⟩⟩
    · exact .inr ⟨hturn, rfl, row, hr, .inr (.inr ⟨rfl, hb, hl⟩)⟩
  · exact .inl (step_busy_otherPort hbusy hturn h)

end Sys2Proof.Machine
end

section
/-! SUPPORT. FLASH_READ as a run of the engine: up to F_POLL, any number of busy status reads, and the two ways out (R170
to R173, R177). -/

namespace Sys2Proof.Machine

/-- FLASH_READ begun in `s`, in F_POLL after `n` status reads. -/
def State.polling (s : State) (rowA rowM rowS : RegRow) (address : Data) (n : Nat) : State :=
  { s with
    rp := { s.rp with
      phase := .fPoll, cs := 0#1, pollCnt := n, op := .flashRead, data := address, client := .port
      history := s.rp.history ++ flashEvents s rowA rowM rowS address n }
    env := afterBytes s.env (flashBytes rowA rowM rowS n) }

section
variable {s : State} {rowA rowM rowS rowD : RegRow} {address : Data} {n : Nat}

/-! ### One status read more -/

theorem flashEvents_succ (s : State) (rowA rowM rowS : RegRow) (address : Data) (n : Nat) :
    flashEvents s rowA rowM rowS address (n + 1) = flashEvents s rowA rowM rowS address n ++
      [.xfer (readFrame s.cfg rowS)
        (deviceBytes (afterBytes s.env (flashBytes rowA rowM rowS n)) (1 + rowS.width.bytes))] := by
  simp [flashEvents, List.range_succ, statusAnswer, flashBytes]

theorem flashBytes_succ (rowA rowM rowS : RegRow) (n : Nat) :
    flashBytes rowA rowM rowS (n + 1) = flashBytes rowA rowM rowS n + (1 + rowS.width.bytes) := by
  simp only [flashBytes, Nat.add_one_mul, Nat.add_assoc]

/-- The status that F_POLL is about to read after `n` reads is the `n`-th of the sequence (from 0). -/
theorem deviceBusy_polling (s : State) (rowA rowM rowS : RegRow) (address : Data) (n : Nat) :
    deviceBusy s.cfg (valueRead (s.polling rowA rowM rowS address n) rowS) =
      busyAt s rowA.width.bytes rowM.width.bytes rowS.width.bytes n := by
  rw [valueRead, readFrame_length]
  rfl

/-- A status read in F_POLL takes the sequence to one status read more. -/
theorem polled_polling (s : State) (rowA rowM rowS : RegRow) (address : Data) (n : Nat) :
    (s.polling rowA rowM rowS address n).polled rowS = s.polling rowA rowM rowS address (n + 1) := by
  apply State.ext
  case rp => apply RpState.ext <;> simp [State.polling, State.polled, flashEvents_succ]
  case env => simp [State.polling, State.polled, flashBytes_succ, afterBytes_add]
  all_goals rfl

/-- A run of one more step goes on from that step's next state. -/
theorem engineRun_succ {s t : State} (h : engineStep s = .next t) (n : Nat) : engineRun (n + 1) s = engineRun n t := by
  rw [engineRun, h, andThen_next]

/-! ### From the acceptance to the `n`-th status read -/

/-- An idle engine accepts FLASH_READ (R170). -/
theorem exec_flashRead_of_idle (hp : s.rp.phase = .idle) (address : Data) :
    exec (.flashRead address) s =
      .next (((s.loadOp .port .flashRead s.rp.reg address).setPollCnt 0).setPhase .fSel) :=
  congrArg _ (acceptFlash_idle ((rpBusy_eq_false _).2 hp) address)

/-- F_SEL, F_ADDR and F_MODE, one after the other, lead to F_POLL with no status read. -/
theorem engineRun_toPoll (hA : s.cfg.row s.cfg.regFlashAddr = some rowA) (hM : s.cfg.row s.cfg.regFlashMode = some rowM)
    (rowS : RegRow) (address : Data) :
    engineRun 3 (((s.loadOp .port .flashRead s.rp.reg address).setPollCnt 0).setPhase .fSel) =
      .next (s.polling rowA rowM rowS address 0) := by
  rw [engineRun_succ (engineStep_fSel rfl), engineRun_succ (engineStep_fAddr rfl (by exact hA)),
    engineRun_succ (engineStep_fMode rfl (by exact hM))]
  refine congrArg _ (State.ext rfl rfl ?_ ?_ rfl)
  · apply RpState.ext <;> simp [State.polling, flashEvents]
  · simp [State.polling, flashBytes, afterBytes_add]

/-- As long as the device answers busy and no limit is reached, the engine stays in F_POLL (R171, R177). -/
theorem engineRun_polling (hS : s.cfg.row s.cfg.regStatus = some rowS)
    (hbusy : ∀ k, k < n → busyAt s rowA.width.bytes rowM.width.bytes rowS.width.bytes k = true)
    (hlimit : ∀ limit, s.cfg.pollLimit = some limit → n < limit) :
    engineRun n (s.polling rowA rowM rowS address 0) = .next (s.polling rowA rowM rowS address n) := by
  induction n with
  | zero => rfl
  | succ n ih =>
    have hnot : pollLimitReached s.cfg (n + 1) = false := by
      rw [← Bool.not_eq_true, pollLimitReached_iff]
      rintro ⟨limit, hl, hle⟩
      exact absurd (hlimit limit hl) (Nat.not_lt.2 hle)
    have hread := engineStep_fPoll_busy (s := s.polling rowA rowM rowS address n) rfl hS
      ((deviceBusy_polling ..).trans (hbusy n (Nat.lt_succ_self n))) hnot
    rw [engineRun_add, ih (fun k hk => hbusy k (Nat.lt_succ_of_lt hk)) fun l hl => Nat.lt_of_succ_lt (hlimit l hl),
      andThen_next, engineRun_succ hread, polled_polling]
    rfl

/-- FLASH_READ is accepted, and after `n` busy status reads below the limit it is in F_POLL. -/
theorem flashRead_polls (hp : s.rp.phase = .idle) (hA : s.cfg.row s.cfg.regFlashAddr = some rowA)
    (hM : s.cfg.row s.cfg.regFlashMode = some rowM) (hS : s.cfg.row s.cfg.regStatus = some rowS)
    (hbusy : ∀ k, k < n → busyAt s rowA.width.bytes rowM.width.bytes rowS.width.bytes k = true)
    (hlimit : ∀ limit, s.cfg.pollLimit = some limit → n < limit) (address : Data) :
    ∃ t, exec (.flashRead address) s = .next t ∧ ∀ m, engineRun (n + 3 + m) t =
      engineRun m (s.polling rowA rowM rowS address n) := by
  refine ⟨_, exec_flashRead_of_idle hp address, fun m => ?_⟩
  rw [Nat.add_comm n 3, engineRun_add, engineRun_add, engineRun_toPoll hA hM rowS address, andThen_next,
    engineRun_polling hS hbusy hlimit, andThen_next]

/-! ### The two ways out of F_POLL -/

/-- F_DESEL releases chip-select and returns to the port what is latched (R79). -/
theorem engineStep_fDesel (hp : s.rp.phase = .fDesel) (hcl : s.rp.client = .port) :
    engineStep s = .next (((s.busCs 1#1).setPhase .idle).respond (.port .rp) s.rp.resStatus (latchedResult s.rp)) := by
  rw [engineStep_release (.inr hp), hcl, deliver_port]

/-- The `n`-th status (from 0) shows busy at the limit: chip-select is released, and no value is returned (R172). -/
theorem engineRun_polling_limit (hS : s.cfg.row s.cfg.regStatus = some rowS)
    (hbusy : busyAt s rowA.width.bytes rowM.width.bytes rowS.width.bytes n = true)
    (hlimit : pollLimitReached s.cfg (n + 1) = true) :
    engineRun 2 (s.polling rowA rowM rowS address n) =
      .next (((((s.polling rowA rowM rowS address (n + 1)).latch .timeout s.rp.resValue).busCs 1#1).setPhase
        .idle).respond (.port .rp) .timeout .none) := by
  have hread := engineStep_fPoll_limit (s := s.polling rowA rowM rowS address n) rfl hS
    ((deviceBusy_polling ..).trans hbusy) hlimit
  rw [engineRun_succ hread, engineRun_succ (engineStep_fDesel rfl rfl), polled_polling]
  rfl

/-- The `n`-th status (from 0) shows the busy bit clear: the data-output register is read, chip-select is released, and the
value read is returned (R170). -/
theorem engineRun_polling_clear (hS : s.cfg.row s.cfg.regStatus = some rowS)
    (hD : s.cfg.row s.cfg.regFlashDataOut = some rowD)
    (hclear : busyAt s rowA.width.bytes rowM.width.bytes rowS.width.bytes n = false) {v : Data}
    (hv : v = valueRead (s.polling rowA rowM rowS address (n + 1)) rowD) :
    engineRun 3 (s.polling rowA rowM rowS address n) =
      .next ((((((s.polling rowA rowM rowS address (n + 1)).busXfer (readFrame s.cfg rowD)).latch .ok v).busCs
        1#1).setPhase .idle).respond (.port .rp) .ok (.value v)) := by
  have hread := engineStep_fPoll_clear (s := s.polling rowA rowM rowS address n) rfl hS
    ((deviceBusy_polling ..).trans hclear)
  rw [polled_polling] at hread
  rw [engineRun_succ hread, engineRun_succ (engineStep_fData rfl (by exact hD)),
    engineRun_succ (engineStep_fDesel rfl rfl), hv]
  rfl

end

/-- Settles O48: `n` busy status reads, a clear one, and the data read. -/
theorem flashReadReturnsDataOut : Obligations.FlashReadReturnsDataOut := by
  intro s address rowA rowM rowS rowD n hp hA hM hS hD hbusy hclear hlimit
  obtain ⟨t, ht, hrun⟩ := flashRead_polls hp hA hM hS hbusy hlimit address
  have hend := (hrun 3).trans (engineRun_polling_clear hS hD hclear rfl)
  refine ⟨t, _, _, _, ht, hend, rfl, rfl, ?_⟩
  apply State.ext
  case rp => apply RpState.ext <;> simp [State.polling, valueRead]
  all_goals simp [State.polling, valueRead, afterBytes_add]

/-- Settles O49: `n - 1` busy status reads below the limit, and one at it. -/
theorem flashReadTimesOut : Obligations.FlashReadTimesOut := by
  intro s address rowA rowM rowS n hp hA hM hS hl hn hbusy
  obtain ⟨m, rfl⟩ := Nat.exists_eq_add_of_le' hn
  have hbelow : ∀ limit, s.cfg.pollLimit = some limit → m < limit := by
    intro limit h
    rw [← Option.some.inj (hl.symm.trans h)]
    exact Nat.lt_succ_self m
  obtain ⟨t, ht, hrun⟩ := flashRead_polls hp hA hM hS (fun k hk => hbusy k (Nat.lt_succ_of_lt hk)) hbelow address
  have hend := (hrun 2).trans (engineRun_polling_limit hS (hbusy m (Nat.lt_succ_self m))
    ((pollLimitReached_iff _ _).2 ⟨m + 1, hl, Nat.le_refl _⟩))
  exact ⟨t, _, ht, hend, rfl⟩

/-- Settles O50: without a limit none is reached, and the state is `State.polling`. -/
theorem unboundedPollKeepsPolling : Obligations.UnboundedPollKeepsPolling := by
  intro s address rowA rowM rowS n hp hA hM hS hl hbusy
  have hnone : ∀ limit, s.cfg.pollLimit = some limit → n < limit := by simp [hl]
  obtain ⟨t, ht, hrun⟩ := flashRead_polls hp hA hM hS hbusy hnone address
  exact ⟨t, _, ht, hrun 0, rfl⟩

end Sys2Proof.Machine
end

section
/-! SUPPORT. What operations return: the statuses of their lists, an error changing nothing else (R200, R203, R209), and
where in the phase table RP returns them (R175). -/

namespace Sys2Proof.Machine

/-! ### The operations of RB (R200, R203) -/

/-- What an operation of RB comes to: one response with a status of its list; RB changes only if that is `Ok`. -/
inductive RbReturn (i : Instr) (s : State) : State → Prop
  | unchanged {st : Status} {res : Result} (hst : st ∈ allowedStatus i) :
      RbReturn i s (s.respond (.port i.port) st res)
  | ok {rb : RbState} {res : Result} (hst : .ok ∈ allowedStatus i) :
      RbReturn i s ((s.withRb rb).respond (.port i.port) .ok res)

theorem exec_rbReturn {i : Instr} {s t : State} (hp : i.port ≠ .rp) (h : exec i s = .next t) : RbReturn i s t := by
  cases i with
  | init capacity elementSize =>
    obtain ⟨-, ⟨-, rfl⟩ | ⟨-, -, rfl⟩ | ⟨-, -, -, -, rfl⟩ | ⟨-, -, -, -, rfl⟩⟩ := execInit_next h
    · exact .unchanged (by simp [allowedStatus])
    · exact .unchanged (by simp [allowedStatus])
    · exact .unchanged (by simp [allowedStatus])
    · exact .ok (by simp [allowedStatus])
  | put element =>
    obtain ⟨-, rfl⟩ | ⟨-, -, -, rfl⟩ := execPut_next h
    · exact .unchanged (by simp [allowedStatus])
    · exact .ok (by simp [allowedStatus])
  | get =>
    obtain ⟨-, rfl⟩ | ⟨-, -, rfl⟩ | ⟨-, -, e, -, rfl⟩ := execGet_next h
    · exact .unchanged (by simp [allowedStatus])
    · exact .unchanged (by simp [allowedStatus])
    · exact .ok (by simp [allowedStatus])
  | getMany count =>
    obtain ⟨-, ⟨-, rfl⟩ | ⟨-, -, rfl⟩ | ⟨-, -, es, -, rfl⟩⟩ := execGetMany_next h
    · exact .unchanged (by simp [allowedStatus])
    · exact .unchanged (by simp [allowedStatus])
    · exact .ok (by simp [allowedStatus])
  | isEmpty | isFull =>
    obtain rfl := Host.Outcome.next.inj h
    exact .unchanged (by simp [allowedStatus])
  | destroy =>
    obtain rfl := Host.Outcome.next.inj h
    exact .ok (by simp [allowedStatus])
  | write | read | verify | flashRead | flashWrite => exact absurd rfl hp

/-- Settles O33: an outcome with RB replaced has the status `Ok`, any other is the response alone. -/
theorem rbErrorChangesNothing : Obligations.RbErrorChangesNothing := by
  intro i s t hp h
  cases exec_rbReturn hp h with
  | unchanged hst => exact ⟨_, _, hst, rfl, fun _ => rfl⟩
  | ok hst => exact ⟨_, _, hst, rfl, fun hne => absurd rfl hne⟩

/-! ### The operations of RP (R175, R209) -/

section
variable {s t : State}

theorem acceptRegOp_port_responses (s : State) (op : RpOp) (reg : Handle) (d : Data) :
    (s.acceptRegOp .port op reg d).responses = s.responses ∨
      (s.acceptRegOp .port op reg d).responses = s.responses ++ [⟨.port .rp, .invalidPointer, .none⟩] := by
  obtain ⟨-, h⟩ | ⟨-, -, h⟩ | ⟨-, -, h⟩ := acceptRegOp_cases s .port op reg d <;> simp [h]

theorem acceptFlash_responses (s : State) (a : Data) : (s.acceptFlash a).responses = s.responses := by
  cases h : rpBusy s.rp with
  | true => simp [acceptFlash_busy h]
  | false => simp [acceptFlash_idle h]

/-- Presenting an operation of RP returns nothing, or `InvalidPointer` where its list has it (R140). -/
theorem exec_rp_responses {i : Instr} (hp : i.port = .rp) (h : exec i s = .next t) :
    t.responses = s.responses ∨
      (.invalidPointer ∈ allowedStatus i ∧ t.responses = s.responses ++ [⟨.port .rp, .invalidPointer, .none⟩]) := by
  cases i with
  | write | read | verify =>
    obtain rfl := Host.Outcome.next.inj h
    exact (acceptRegOp_port_responses ..).imp_right fun hr => ⟨by simp [allowedStatus], hr⟩
  | flashRead =>
    obtain rfl := Host.Outcome.next.inj h
    exact .inl (acceptFlash_responses ..)
  | flashWrite => exact absurd h (by simp [exec, execFlashWrite])
  | init | put | get | getMany | isEmpty | isFull | destroy => simp [Instr.port] at hp

/-- Only the rows that release chip-select return a response (R175). -/
theorem engineStep_responses (hd : s.rp.phase ≠ .desel) (hf : s.rp.phase ≠ .fDesel) (h : engineStep s = .next t) :
    t.responses = s.responses := by
  cases hp : s.rp.phase <;> simp only [engineStep, hp] at h
  case idle | sel | fSel =>
    obtain rfl := Host.Outcome.next.inj h
    rfl
  case xfer =>
    obtain ⟨row, tx, v, -, -, -, rfl⟩ := engineXfer_next h
    rfl
  case desel => exact absurd hp hd
  case fDesel => exact absurd hp hf
  case fAddr | fMode | fData =>
    obtain ⟨row, -, rfl⟩ := withRow_eq_next.1 h
    rfl
  case fPoll =>
    obtain ⟨row, -, ⟨-, rfl⟩ | ⟨-, -, rfl⟩ | ⟨-, -, rfl⟩⟩ := engineFPoll_next h <;> rfl

/-- At F_DESEL the operation in flight is FLASH_READ, so `Ok` goes with a value and `Timeout` with none (R170, R172). -/
theorem latchedResult_fDesel (hinv : RpInv s.cfg s.rp) (hp : s.rp.phase = .fDesel) :
    (s.rp.resStatus = .ok ∧ latchedResult s.rp = .value s.rp.resValue) ∨
      (s.rp.resStatus = .timeout ∧ latchedResult s.rp = .none) := by
  have hop : s.rp.op = .flashRead := (hinv.op (by simp [hp])).2 (by rw [hp]; rfl)
  exact (hinv.flashStatus hp).imp (fun hst => ⟨hst, by simp [latchedResult, hst, okResult, hop]⟩)
    fun hst => ⟨hst, by simp [latchedResult, hst]⟩

end

/-- Settles O45: the acceptance, the silent rows of the phase table, and the two rows that return what is latched. -/
theorem rpReturnsItsStatuses : Obligations.RpReturnsItsStatuses := by
  intro s t hinv hcl
  refine ⟨fun _ => exec_rp_responses, fun h => ⟨fun hp => engineStep_responses hp.1 hp.2 h, ?_, ?_⟩⟩
  · intro hp
    rw [engineStep_desel hp (hinv.regStatus hp), hcl] at h
    obtain rfl := Host.Outcome.next.inj h
    exact ⟨_, rfl⟩
  · intro hp
    rw [engineStep_fDesel hp hcl] at h
    obtain rfl := Host.Outcome.next.inj h
    obtain ⟨hst, hres⟩ | ⟨hst, hres⟩ := latchedResult_fDesel hinv hp
    · exact .inl ⟨s.rp.resValue, by simp [hst, hres]⟩
    · exact .inr (by simp [hst, hres])

end Sys2Proof.Machine
end
